-- ==== Sys2Proof/Word.lean ====
section
/-! DEFINITION. The fixed widths of the block (spec 00_scope.md R6): an input byte `u8` and a 16-bit
value `u16`. The arithmetic on them (fields, `le16`, sign extension) stands where it is used, in
Decode.lean and Machine/Operands.lean. -/

namespace Sys2Proof

/-- `u8`: one byte of the input buffer (R6, R9). -/
abbrev Byte := BitVec 8

/-- `u16`: a direct address, a 16-bit immediate, or the bits of an `i16` displacement (R6, R9). -/
abbrev Half := BitVec 16

end Sys2Proof
end

