-- ==== Sys2Proof/Syntax.lean ====
section
/-! DEFINITION. The instructions (one constructor per row of spec/opcode_table.json), the operands and
decoded records the block produces from them, and its error kinds. Plain data, no meaning. -/

namespace Sys2Proof

/-- The width bit `w` (R48): 0 selects 8-bit, 1 selects 16-bit. -/
inductive Width where
  /-- `w = 0` -/
  | byte
  /-- `w = 1` -/
  | word
  deriving DecidableEq, Repr

/-- The direction bit `d` of the RM form (R48): does the reg field name the destination or the source? -/
inductive Direction where
  /-- `d = 0`: the r/m operand is the destination, the reg operand the source. -/
  | regIsSource
  /-- `d = 1`: the reg operand is the destination, the r/m operand the source. -/
  | regIsDestination
  deriving DecidableEq, Repr

/-- The 16 8086 registers the block names and does not hold (R24, R53). -/
inductive Reg where
  | al | cl | dl | bl | ah | ch | dh | bh
  | ax | cx | dx | bx | sp | bp | si | di
  deriving DecidableEq, Repr

/-- The 8 base expressions of memory operands (R55). -/
inductive Base where
  | bxSi | bxDi | bpSi | bpDi | si | di | bp | bx
  deriving DecidableEq, Repr

/-- An immediate as its instruction encodes it (R62): one byte with `w = 0`, two with `w = 1`. -/
inductive Imm where
  | byte (v : Byte)
  | word (v : Half)
  deriving DecidableEq, Repr

/-- The r/m operand as the mod and rm fields and the bytes after them encode it (R46, R56). Each
addressing mode is kept apart, so that an instruction determines its bytes: the decoded operand does
not say which mode it came from (R60). -/
inductive RmOperand where
  /-- mod = 11: a register. -/
  | register (r : Reg)
  /-- mod = 00, rm = 110: an unsigned 16-bit direct address. -/
  | direct (a : Half)
  /-- mod = 00, rm ≠ 110: a base expression with no displacement byte. -/
  | based (b : Base)
  /-- mod = 01: a base expression and one displacement byte. -/
  | based8 (b : Base) (d : Byte)
  /-- mod = 10: a base expression and two displacement bytes. -/
  | based16 (b : Base) (d : Half)
  deriving DecidableEq, Repr

/-- The five MOV forms of the opcode table, with every field of their encodings (R46). The bits the
block ignores (R66) are kept in `spare`, so that each byte sequence is one instruction and encoding
gives it back; no meaning reads them. -/
inductive Instr where
  /-- `MOV r, imm` (IR, R78): `1011 w rrr`, imm. The width bit is the register's width. -/
  | movRImm (dst : Reg) (imm : Imm)
  /-- `MOV r/m, r / MOV r, r/m` (RM, R79): `1000 10 d w`, `mm ggg bbb`, displacement. -/
  | movRmR (dir : Direction) (reg : Reg) (rm : RmOperand)
  /-- `MOV [addr], ax` (AM, R80): `1010 001 ?`, address. -/
  | movAddrAx (spare : BitVec 1) (addr : Half)
  /-- `MOV ax, [addr]` (MA, R81): `1010 000 ?`, address. -/
  | movAxAddr (spare : BitVec 1) (addr : Half)
  /-- `MOV r/m, imm` (IRM, R82): `1100 011 w`, `mm xxx bbb`, displacement, imm. -/
  | movRmImm (spare : BitVec 3) (dst : RmOperand) (imm : Imm)
  deriving DecidableEq, Repr

/-- The instruction form the classifier selects (R11, R49). -/
inductive Form where
  | immediateToRegister
  | registerOrMemoryToFromRegister
  | accumulatorToMemory
  | memoryToAccumulator
  | immediateToRegisterOrMemory
  deriving DecidableEq, Repr

/-- One mask/value pair of the opcode classifier (R49). -/
structure ClassifierRow where
  form : Form
  mask : Byte
  value : Byte
  deriving DecidableEq, Repr

/-- `OperandSpec` (R11): a decoded register or memory operand. The displacement is an `i16`, held by
its bits; `Machine.asI16` is its value. -/
inductive OperandSpec where
  | register (name : Reg)
  | directMemory (address : Half)
  | indexedMemory (baseExpr : Base) (displacement : Half)
  deriving DecidableEq, Repr

/-- The size keyword an immediate is rendered with (R76): `none`, `byte` or `word`. -/
inductive ImmSize where
  | none | byte | word
  deriving DecidableEq, Repr

/-- An operand of a decoded record (R76): an `OperandSpec` or an unsigned immediate. -/
inductive Operand where
  | spec (o : OperandSpec)
  | imm (value : Nat) (size : ImmSize)
  deriving DecidableEq, Repr

/-- The decoded record a handler returns (R76): the block's structured output. -/
structure Record where
  form : Form
  dst : Operand
  src : Operand
  deriving DecidableEq, Repr

/-- `DecodeError` (R85): exactly four kinds, with the values they record (R86). -/
inductive DecodeError where
  /-- Raised by `Cursor.next` at the first missing byte (R87). -/
  | truncatedInput
  /-- Raised by `classify` (R88); records the first byte. -/
  | unsupportedOpcode (byte : Byte)
  /-- The defensive arm of `decodeRM` (R89); no input raises it (R61). -/
  | unsupportedAddressingMode (mod : BitVec 2)
  /-- The defensive arm of `regName` (R90); no input raises it (R54). -/
  | invalidEncoding
  deriving DecidableEq, Repr

end Sys2Proof
end

