-- ==== Sys2Proof/Machine/Memory.lean ====
section
/-! DEFINITION. The block's one address space it reads, the input buffer `buf` (20_memory.md R29, R38),
and the ByteCursor over it (R2, R31, R32). -/

namespace Sys2Proof.Machine

/-- The input buffer: the bytes at the offsets `0 .. n-1`, as (offset, byte) cells in rising order.
An offset that is not listed is not in the buffer. -/
abbrev Memory := List Host.Cell

/-- What an unlisted offset reads as: nothing, since the buffer is exactly the offsets `0 .. n-1` (R30,
R38; log entry 3). -/
def Memory.unlisted : Option Byte := none

/-- `MemRead(addr, 1)` (R30). -/
def Memory.read : Memory → Nat → Option Byte
  | [], _ => Memory.unlisted
  | (k, b) :: m, a => if k = a then some b else Memory.read m a

/-- `n = len(buf)` (R10). -/
def Memory.size (m : Memory) : Nat := m.length

/-- The cells of a byte sequence laid out from offset `a` up. -/
def Memory.cellsFrom : Nat → List Byte → Memory
  | _, [] => []
  | a, b :: bs => (a, b) :: Memory.cellsFrom (a + 1) bs

/-- The buffer that holds a byte sequence (R14). -/
def Memory.ofBytes (bs : List Byte) : Memory := Memory.cellsFrom 0 bs

/-- The byte sequence a buffer holds. -/
def Memory.bytes (m : Memory) : List Byte := m.map Prod.snd

/-- The cells are the offsets `a, a+1, …` in this order. -/
def Memory.wfFrom : Nat → Memory → Bool
  | _, [] => true
  | a, (k, _) :: m => k == a && Memory.wfFrom (a + 1) m

/-- The canonical form: offsets `0, 1, … , n-1`, rising, none missing (R38). -/
def Memory.wf (m : Memory) : Bool := Memory.wfFrom 0 m

/-- The buffer with `bs` laid over the offsets from `a` up, longer if it has to be, and 0 in a gap
between its old end and `a`. The block itself never writes `buf` (R14, R30): this is the host placing
bytes, for `State.withFetchWord`. -/
def Memory.overlay (m : Memory) (a : Nat) (bs : List Byte) : Memory :=
  Memory.ofBytes
    (m.bytes.take a ++ List.replicate (a - m.bytes.length) 0 ++ bs ++ m.bytes.drop (a + bs.length))

/-- The ByteCursor: a position over an immutable buffer (R2, R16). -/
structure Cursor where
  buf : Memory
  pos : Nat
  deriving DecidableEq, Repr

/-- What a read through the cursor can come to. -/
inductive Read (α : Type) where
  /-- A value, and the cursor after the bytes it took. -/
  | got (a : α) (c : Cursor)
  /-- `raise e` (R10), with the cursor as it stood. -/
  | raised (e : DecodeError) (c : Cursor)
  /-- `MemRead` of an offset the buffer does not have. R30 says it is never applied there; it happens
  only from a cursor outside its invariant (log entry 3). -/
  | outside
  deriving DecidableEq, Repr

/-- Go on with the value read; an error or a read outside the buffer ends the whole read. -/
def Read.andThen {α β : Type} (r : Read α) (f : α → Cursor → Read β) : Read β :=
  match r with
  | .got a c => f a c
  | .raised e c => .raised e c
  | .outside => .outside

/-- A computation that reads nothing: its value, or its `raise`. -/
def Read.ofExcept {α : Type} (x : Except DecodeError α) (c : Cursor) : Read α :=
  match x with
  | .ok a => .got a c
  | .error e => .raised e c

/-- `AtEnd()` (R32): `pos == n`. -/
def Cursor.atEnd (c : Cursor) : Bool := c.pos == c.buf.size

/-- `Next()` (R31): one byte, the cursor one further; `TruncatedInput` if no byte remains, the cursor
where it was. -/
def Cursor.next (c : Cursor) : Read Byte :=
  if c.atEnd then .raised .truncatedInput c
  else
    match c.buf.read c.pos with
    | some b => .got b ⟨c.buf, c.pos + 1⟩
    | none => .outside

end Sys2Proof.Machine
end

