-- ==== Sys2Proof/WellFormed.lean ====
section
/-! DEFINITION. Which terms of `Instr` are instructions: a register operand has the width its encoding
gives it, and mod = 00 with rm = 110 is never a base expression. Everything else the encoding admits
is already said by the types. -/

namespace Sys2Proof

/-- The width a register name belongs to (R24, R53). -/
def Reg.width : Reg → Width
  | .al | .cl | .dl | .bl | .ah | .ch | .dh | .bh => .byte
  | .ax | .cx | .dx | .bx | .sp | .bp | .si | .di => .word

/-- How many bytes an immediate takes, as the width bit that says so (R62). -/
def Imm.width : Imm → Width
  | .byte _ => .byte
  | .word _ => .word

/-- An r/m operand that can be encoded under width `w`: a register of that width (R56, mod = 11); under
mod = 00 any base expression but `bp`, whose code 110 means a direct address there (R59). -/
def RmOperand.wf (w : Width) : RmOperand → Bool
  | .register r => r.width == w
  | .direct _ => true
  | .based b => b != .bp
  | .based8 _ _ => true
  | .based16 _ _ => true

/-- The instructions the encoding admits. In IR the one width bit gives register and immediate (R78); in
RM it gives both operands (R79); in IRM the r/m operand's width is forced to 0 (R67). -/
def Instr.wf : Instr → Bool
  | .movRImm dst imm => dst.width == imm.width
  | .movRmR _ reg rm => rm.wf reg.width
  | .movAddrAx _ _ => true
  | .movAxAddr _ _ => true
  | .movRmImm _ dst _ => dst.wf .byte

end Sys2Proof
end

