-- ==== Sys2Proof/Decode.lean ====
section
/-! DEFINITION. From bytes to an instruction, and back. The decoder is the spec's pseudocode over the
ByteCursor: the opcode classifier (30_encoding.md R49), the register and base-expression tables (R53,
R55), the operand decoder (R56), and the byte-reading half of the five handlers (40_mov.md R78 to R82).
Then the encoder, written from the format table R46, and the host's `decodeTableWord`. -/

namespace Sys2Proof

open Machine (Memory Cursor Read)

/-! ### Fields (R47) and little-endian assembly (R34) -/

/-- `ir_w(b0) = b0[3]`. -/
def irW (b0 : Byte) : BitVec 1 := b0.extractLsb' 3 1
/-- `ir_reg(b0) = b0[2:0]`. -/
def irReg (b0 : Byte) : BitVec 3 := b0.extractLsb' 0 3
/-- `d_field(b0) = b0[1]`. -/
def dField (b0 : Byte) : BitVec 1 := b0.extractLsb' 1 1
/-- `w_field(b0) = b0[0]`. -/
def wField (b0 : Byte) : BitVec 1 := b0.extractLsb' 0 1
/-- `mod_field(b1) = b1[7:6]`. -/
def modField (b1 : Byte) : BitVec 2 := b1.extractLsb' 6 2
/-- `reg_field(b1) = b1[5:3]`. -/
def regField (b1 : Byte) : BitVec 3 := b1.extractLsb' 3 3
/-- `rm_field(b1) = b1[2:0]`. -/
def rmField (b1 : Byte) : BitVec 3 := b1.extractLsb' 0 3

/-- `le16(lo, hi) = zext_16(lo) | (zext_16(hi) << 8)` (R9, R34). -/
def le16 (lo hi : Byte) : Half := lo.setWidth 16 ||| (hi.setWidth 16 <<< 8)

/-- The width a width bit selects (R48). -/
def Width.ofBit (w : BitVec 1) : Width := if w = 1#1 then .word else .byte

/-- The order a direction bit selects (R48). -/
def Direction.ofBit (d : BitVec 1) : Direction := if d = 1#1 then .regIsDestination else .regIsSource

/-! ### The opcode classifier (R49) -/

/-- The five mask/value pairs, in their fixed priority order (R49). -/
def classifierTable : List ClassifierRow :=
  [ ⟨.immediateToRegister,            0b1111_0000#8, 0b1011_0000#8⟩,
    ⟨.registerOrMemoryToFromRegister, 0b1111_1100#8, 0b1000_1000#8⟩,
    ⟨.accumulatorToMemory,            0b1111_1110#8, 0b1010_0010#8⟩,
    ⟨.memoryToAccumulator,            0b1111_1110#8, 0b1010_0000#8⟩,
    ⟨.immediateToRegisterOrMemory,    0b1111_1110#8, 0b1100_0110#8⟩ ]

/-- Does a first byte satisfy a pair? -/
def ClassifierRow.accepts (r : ClassifierRow) (b0 : Byte) : Bool := b0 &&& r.mask == r.value

/-- `Classify(b0)` (R49): the first pair that holds, else `UnsupportedOpcode(b0)`. -/
def classify (b0 : Byte) : Except DecodeError Form :=
  match classifierTable.find? (fun r => r.accepts b0) with
  | some r => .ok r.form
  | none => .error (.unsupportedOpcode b0)

/-! ### The two tables -/

/-- `RegName(code, w)` (R53), with the defensive arm the spec keeps (R54, R90; log entry 18). -/
def regName (code : BitVec 3) (w : Width) : Except DecodeError Reg :=
  match code, w with
  | 0b000#3, .byte => .ok .al
  | 0b001#3, .byte => .ok .cl
  | 0b010#3, .byte => .ok .dl
  | 0b011#3, .byte => .ok .bl
  | 0b100#3, .byte => .ok .ah
  | 0b101#3, .byte => .ok .ch
  | 0b110#3, .byte => .ok .dh
  | 0b111#3, .byte => .ok .bh
  | 0b000#3, .word => .ok .ax
  | 0b001#3, .word => .ok .cx
  | 0b010#3, .word => .ok .dx
  | 0b011#3, .word => .ok .bx
  | 0b100#3, .word => .ok .sp
  | 0b101#3, .word => .ok .bp
  | 0b110#3, .word => .ok .si
  | 0b111#3, .word => .ok .di
  | _, _ => .error .invalidEncoding

/-- `BaseExpr(rm)` (R55). The last arm is the code 111, the only one left. -/
def baseExpr (rm : BitVec 3) : Base :=
  match rm with
  | 0b000#3 => .bxSi
  | 0b001#3 => .bxDi
  | 0b010#3 => .bpSi
  | 0b011#3 => .bpDi
  | 0b100#3 => .si
  | 0b101#3 => .di
  | 0b110#3 => .bp
  | _ => .bx

/-! ### Reading operands -/

/-- `Next16()` (R10, R34): the low byte first. -/
def next16 (c : Cursor) : Read Half :=
  c.next.andThen fun lo c => c.next.andThen fun hi c => .got (le16 lo hi) c

/-- `DecodeRM(mod, rm, w)` (R56): the bytes the mode requires, in this order. The addressing mode stays
in the operand; `RmOperand.spec` is the `OperandSpec` it stands for. The last arm is the defensive one
of R61. -/
def decodeRM (mod : BitVec 2) (rm : BitVec 3) (w : Width) (c : Cursor) : Read RmOperand :=
  match mod with
  | 0b11#2 => (Read.ofExcept (regName rm w) c).andThen fun r c => .got (.register r) c
  | 0b00#2 =>
    if rm = 0b110#3 then (next16 c).andThen fun a c => .got (.direct a) c
    else .got (.based (baseExpr rm)) c
  | 0b01#2 => c.next.andThen fun d c => .got (.based8 (baseExpr rm) d) c
  | 0b10#2 => (next16 c).andThen fun d c => .got (.based16 (baseExpr rm) d) c
  | other => .raised (.unsupportedAddressingMode other) c

/-- The immediate of width `w` (R62): one byte, or two little-endian. -/
def nextImm (w : Width) (c : Cursor) : Read Imm :=
  match w with
  | .byte => c.next.andThen fun v c => .got (.byte v) c
  | .word => (next16 c).andThen fun v c => .got (.word v) c

/-! ### The five forms, after their first byte -/

/-- What `HandleIR` reads (R78). -/
def decodeIR (b0 : Byte) (c : Cursor) : Read Instr :=
  (nextImm (.ofBit (irW b0)) c).andThen fun v c =>
    (Read.ofExcept (regName (irReg b0) (.ofBit (irW b0))) c).andThen fun r c => .got (.movRImm r v) c

/-- What `HandleRM` reads (R79). -/
def decodeFormRM (b0 : Byte) (c : Cursor) : Read Instr :=
  c.next.andThen fun b1 c =>
    (Read.ofExcept (regName (regField b1) (.ofBit (wField b0))) c).andThen fun r c =>
      (decodeRM (modField b1) (rmField b1) (.ofBit (wField b0)) c).andThen fun m c =>
        .got (.movRmR (.ofBit (dField b0)) r m) c

/-- What `HandleAM` reads (R80); bit 0 of `b0` only goes along (R66). -/
def decodeAM (b0 : Byte) (c : Cursor) : Read Instr :=
  (next16 c).andThen fun a c => .got (.movAddrAx (b0.extractLsb' 0 1) a) c

/-- What `HandleMA` reads (R81); bit 0 of `b0` only goes along (R66). -/
def decodeMA (b0 : Byte) (c : Cursor) : Read Instr :=
  (next16 c).andThen fun a c => .got (.movAxAddr (b0.extractLsb' 0 1) a) c

/-- What `HandleIRM` reads (R82): the operand's width is forced to 0 (R67; log
entry 16), the immediate follows the
displacement (R113), and the reg field only goes along (R66). -/
def decodeIRM (b0 : Byte) (c : Cursor) : Read Instr :=
  c.next.andThen fun b1 c =>
    (decodeRM (modField b1) (rmField b1) .byte c).andThen fun m c =>
      (nextImm (.ofBit (wField b0)) c).andThen fun v c => .got (.movRmImm (regField b1) m v) c

/-- Dispatch on the form, one arm per form, no default arm (R75). -/
def decodeForm (form : Form) (b0 : Byte) (c : Cursor) : Read Instr :=
  match form with
  | .immediateToRegister => decodeIR b0 c
  | .registerOrMemoryToFromRegister => decodeFormRM b0 c
  | .accumulatorToMemory => decodeAM b0 c
  | .memoryToAccumulator => decodeMA b0 c
  | .immediateToRegisterOrMemory => decodeIRM b0 c

/-- One instruction from the cursor: the first byte is consumed, then classified (R52, R74), then its
form reads the rest. Total: every cursor gives an instruction, an error by name, or `outside`. -/
def decode (c : Cursor) : Read Instr :=
  c.next.andThen fun b0 c => (Read.ofExcept (classify b0) c).andThen fun form c => decodeForm form b0 c

/-! ### The encoder (R46) -/

/-- The width bit of a width (R48). -/
def Width.bit : Width → BitVec 1
  | .byte => 0
  | .word => 1

/-- The direction bit of an order (R48). -/
def Direction.bit : Direction → BitVec 1
  | .regIsSource => 0
  | .regIsDestination => 1

/-- The 3-bit code of a register name (R53). -/
def Reg.code : Reg → BitVec 3
  | .al | .ax => 0b000
  | .cl | .cx => 0b001
  | .dl | .dx => 0b010
  | .bl | .bx => 0b011
  | .ah | .sp => 0b100
  | .ch | .bp => 0b101
  | .dh | .si => 0b110
  | .bh | .di => 0b111

/-- The 3-bit r/m code of a base expression (R55). -/
def Base.code : Base → BitVec 3
  | .bxSi => 0b000
  | .bxDi => 0b001
  | .bpSi => 0b010
  | .bpDi => 0b011
  | .si => 0b100
  | .di => 0b101
  | .bp => 0b110
  | .bx => 0b111

/-- A 16-bit value as two bytes, the low byte first (R34). -/
def encodeHalf (h : Half) : List Byte := [h.extractLsb' 0 8, h.extractLsb' 8 8]

/-- The bytes of an immediate (R62). -/
def Imm.encode : Imm → List Byte
  | .byte v => [v]
  | .word v => encodeHalf v

/-- The mod field of an r/m operand (R48, R56). -/
def RmOperand.mod : RmOperand → BitVec 2
  | .register _ => 0b11
  | .direct _ => 0b00
  | .based _ => 0b00
  | .based8 _ _ => 0b01
  | .based16 _ _ => 0b10

/-- The rm field of an r/m operand (R53, R55, R59). -/
def RmOperand.rm : RmOperand → BitVec 3
  | .register r => r.code
  | .direct _ => 0b110
  | .based b => b.code
  | .based8 b _ => b.code
  | .based16 b _ => b.code

/-- The displacement or address bytes of an r/m operand (R46, R56). -/
def RmOperand.tail : RmOperand → List Byte
  | .register _ => []
  | .direct a => encodeHalf a
  | .based _ => []
  | .based8 _ d => [d]
  | .based16 _ d => encodeHalf d

/-- The second byte `mm ggg bbb` of the RM and IRM forms (R46). -/
def modRegRm (m : RmOperand) (reg : BitVec 3) : Byte := m.mod ++ reg ++ m.rm

/-- The bytes of an instruction, in buffer order (R46). -/
def encode : Instr → List Byte
  | .movRImm dst imm => ((0b1011#4 ++ imm.width.bit ++ dst.code : Byte)) :: imm.encode
  | .movRmR dir reg rm =>
    ((0b100010#6 ++ dir.bit ++ reg.width.bit : Byte)) :: modRegRm rm reg.code :: rm.tail
  | .movAddrAx spare addr => ((0b1010001#7 ++ spare : Byte)) :: encodeHalf addr
  | .movAxAddr spare addr => ((0b1010000#7 ++ spare : Byte)) :: encodeHalf addr
  | .movRmImm spare dst imm =>
    ((0b1100011#7 ++ imm.width.bit : Byte)) :: modRegRm dst spare :: (dst.tail ++ imm.encode)

/-! ### Lengths (R64) -/

/-- `D(mod, rm)`: the displacement or address bytes an addressing mode takes. -/
def dispLength (mod : BitVec 2) (rm : BitVec 3) : Nat :=
  match mod with
  | 0b11#2 => 0
  | 0b00#2 => if rm = 0b110#3 then 2 else 0
  | 0b01#2 => 1
  | _ => 2

/-- `I(w)`: the bytes of an immediate. -/
def immLength : Width → Nat
  | .byte => 1
  | .word => 2

/-- The length of an instruction of a form, from its first two bytes. -/
def formLength (form : Form) (b0 b1 : Byte) : Nat :=
  match form with
  | .immediateToRegister => 1 + immLength (.ofBit (irW b0))
  | .registerOrMemoryToFromRegister => 2 + dispLength (modField b1) (rmField b1)
  | .accumulatorToMemory => 3
  | .memoryToAccumulator => 3
  | .immediateToRegisterOrMemory =>
    2 + dispLength (modField b1) (rmField b1) + immLength (.ofBit (wField b0))

/-! ### One instruction as the opcode table numbers its bits -/

/-- The longest instruction, in bytes (R46). -/
def maxLength : Nat := 6

/-- The bytes of an instruction whose bits are `w`: byte k is bits 8k+7 down to 8k, every bit from
`nbits` up is 0, and there are as many bytes as the longest instruction has. -/
def wordBytes (nbits w : Nat) : List Byte :=
  (List.range maxLength).map fun k => BitVec.ofNat 8 ((w % 2 ^ nbits) >>> (8 * k))

/-- The instruction the decoder reads from those bytes, `none` where it refuses. -/
def decodeTableWord (nbits w : Nat) : Option Instr :=
  match decode ⟨Memory.ofBytes (wordBytes nbits w), 0⟩ with
  | .got i _ => some i
  | .raised _ _ => none
  | .outside => none

end Sys2Proof
end

