-- ==== Sys2Proof/Machine/Operands.lean ====
section
/-! DEFINITION. Operands: the two's complement values of displacements (R9, R57, R58; log entry 15), the operand an
addressing mode stands for (R56), and the text of names, operands and lines (30_encoding.md section 10). -/

namespace Sys2Proof.Machine

/-! ### Displacements -/

/-- `as_i8(b)` (R9): `b - 256` if bit 7 is set, else `b`. -/
def asI8 (b : Byte) : Int := if b.getLsbD 7 then (b.toNat : Int) - 256 else b.toNat

/-- `as_i16(h)` (R9): `h - 65536` if bit 15 is set, else `h`. -/
def asI16 (h : Half) : Int := if h.getLsbD 15 then (h.toNat : Int) - 65536 else h.toNat

/-- `sext_16(v)` (R9): bit 7 copied into bits 15..8. -/
def sext16 (b : Byte) : Half := b.signExtend 16

/-- The `OperandSpec` that an addressing mode and its bytes stand for (R56). -/
def rmSpec : RmOperand → OperandSpec
  | .register r => .register r
  | .direct a => .directMemory a
  | .based b => .indexedMemory b 0
  | .based8 b d => .indexedMemory b (sext16 d)
  | .based16 b d => .indexedMemory b d

/-- The unsigned value of an immediate (R62). -/
def immValue : Imm → Nat
  | .byte v => v.toNat
  | .word v => v.toNat

/-- The size keyword of an IRM immediate (R82): `byte` for `w = 0`, `word` for `w = 1`. -/
def immSize : Imm → ImmSize
  | .byte _ => .byte
  | .word _ => .word

/-! ### Text -/

/-- The lowercase name of a register (R24, R53). -/
def regText : Reg → String
  | .al => "al" | .cl => "cl" | .dl => "dl" | .bl => "bl"
  | .ah => "ah" | .ch => "ch" | .dh => "dh" | .bh => "bh"
  | .ax => "ax" | .cx => "cx" | .dx => "dx" | .bx => "bx"
  | .sp => "sp" | .bp => "bp" | .si => "si" | .di => "di"

/-- The text of a base expression (R55). -/
def baseText : Base → String
  | .bxSi => "bx + si"
  | .bxDi => "bx + di"
  | .bpSi => "bp + si"
  | .bpDi => "bp + di"
  | .si => "si"
  | .di => "di"
  | .bp => "bp"
  | .bx => "bx"

/-- The ASCII digit of a number below 10. -/
def digitChar (d : Nat) : Char := Char.ofNat (48 + d)

/-- The decimal digits of `n`, the most significant first; `fuel` bounds how many. -/
def decDigits : Nat → Nat → List Char
  | 0, _ => []
  | fuel + 1, n => (if n < 10 then [] else decDigits fuel (n / 10)) ++ [digitChar (n % 10)]

/-- `dec(v)` (R68): base 10, no leading zeros, no sign; `dec(0) = "0"`. -/
def dec (n : Nat) : String := String.ofList (decDigits (n + 1) n)

/-- The displacement term of an indexed operand (R69): nothing for 0, else its sign and magnitude. The
magnitude is the mathematical one, 32768 for -32768 (R73; log entry 8). -/
def displacementText (d : Int) : String :=
  if d = 0 then "" else if 0 < d then " + " ++ dec d.natAbs else " - " ++ dec d.natAbs

/-- `Render` of a register or memory operand (R69). -/
def renderSpec : OperandSpec → String
  | .register r => regText r
  | .directMemory a => "[" ++ dec a.toNat ++ "]"
  | .indexedMemory b d => "[" ++ baseText b ++ displacementText (asI16 d) ++ "]"

/-- The size keyword before an immediate (R69). -/
def sizeText : ImmSize → String
  | .none => ""
  | .byte => "byte "
  | .word => "word "

/-- `Render` of an operand (R69). -/
def render : Operand → String
  | .spec o => renderSpec o
  | .imm v size => sizeText size ++ dec v

/-- `RenderLine(instr)` (R70, R77). -/
def renderLine (r : Record) : String := "mov " ++ render r.dst ++ ", " ++ render r.src ++ "\n"

/-- The header of every successful output (R71). -/
def header : String := "bits 16\n\n"

end Sys2Proof.Machine
end

