-- ==== Sys2Proof/Machine/State.lean ====
section
/-! DEFINITION. The state of one decode call (10_state.md R13), the reasons a step can stop, and the
state after reset (R28, R105). -/

namespace Sys2Proof.Machine

/-- The driver status (R18). `done` and `failed` are terminal. -/
inductive Status where
  | running | done | failed
  deriving DecidableEq, Repr

/-- The state record `S` of R13, with the call's input buffer beside it: `buf` is a parameter of the
call (R14), so it stands here as a field that no step writes (log entry 1). -/
structure State where
  /-- The input buffer of the call (R14); no step changes it. -/
  buf : Memory
  /-- The cursor's position, the block's program counter (R16). Its value in a failed state is not
  observable (R92; log entry 5). -/
  pos : Nat
  /-- The driver status (R18). -/
  status : Status
  /-- The instruction lines emitted so far, each with its LF (R20). In a failed state they are no output
  (R92; log entry 6). -/
  lines : List String
  /-- The error that ended the call (R21). -/
  err : Option DecodeError
  deriving DecidableEq, Repr

/-- Why the machine stops. A decode error is not among these: it is the block's own trap, and the step
that raises it answers a next state (R92). -/
inductive Fault where
  /-- Raised by `step` in `Done`: no step is defined from there (R93, R102; log entry 4). Safe. -/
  | noStepFromDone
  /-- Raised by `step` in `Failed`: no step is defined from there (R93, R94; log entry 4). Safe. -/
  | noStepFromFailed
  /-- Raised by `step` where `MemRead` would be applied outside `0 .. n-1`, which R30 says never happens:
  only in a state outside the invariant, its position past the buffer's end or its buffer not in
  canonical form (log entry 3). Safe. -/
  | readOutsideBuffer
  deriving DecidableEq, Repr

/-- Why an operation has no meaning here. -/
inductive Refusal where
  /-- An instruction `exec` has no meaning for. No arm answers it: all five forms have their meaning. -/
  | notModelled (mnemonic : String)
  /-- Answered by `startBounded` (and so `start`) in a bounded build of the block for a buffer longer than `BUF_LEN_MAX` (R7, D3). Safe. -/
  | bufferTooLong (length : Nat)
  deriving DecidableEq, Repr

/-- The result of a call (R22, R107). -/
inductive CallResult where
  | ok (text : String)
  | err (e : DecodeError)
  deriving DecidableEq, Repr

/-- The state after reset (R28, R105), with no buffer supplied yet: `buf` is not state of the block, and
the empty one here is the model's choice (log entry 2). -/
def State.reset : State :=
  { buf := [], pos := 0, status := .running, lines := [], err := none }

end Sys2Proof.Machine
end

