-- ==== Sys2Proof/Machine/Ops.lean ====
section
/-! DEFINITION. The named operations over the state: the cursor, emitting a line, raising an error (the
block's one exception), ending the call, reset, supplying a buffer, and the result of a call. -/

namespace Sys2Proof.Machine

/-- The ByteCursor of the call (R2). -/
def State.cursor (s : State) : Cursor := ⟨s.buf, s.pos⟩

/-- The state with its cursor where the reads of a step left it (R16). -/
def State.withPos (s : State) (pos : Nat) : State := { s with pos := pos }

/-- `lines <- lines ++ [RenderLine(instr)]` (R74, R77): the effect of every handler's record. -/
def State.emit (s : State) (r : Record) : State := { s with lines := s.lines ++ [renderLine r] }

/-- Raising an error (R92): `status <- Failed`, `err <- e`; nothing else is written, control goes
nowhere, and there is no return from it (R93). -/
def State.raiseError (s : State) (e : DecodeError) : State :=
  { s with status := .failed, err := some e }

/-- `status <- Done` (R74). -/
def State.finish (s : State) : State := { s with status := .done }

/-- Reading the next instruction through the cursor (R74). -/
def State.fetch (s : State) : Read Instr := decode s.cursor

/-- Reset asserted by the host at any time (R104, R105): every piece of state at its reset value. The
buffer is the host's, not state (R28): it stays as supplied (log entry 10). -/
def State.assertReset (s : State) : State := { State.reset with buf := s.buf }

/-- The state from which a call over a byte sequence begins: the buffer supplied, the block reset
(R103, R105). -/
def State.load (bs : List Byte) : State := { State.reset with buf := Memory.ofBytes bs }

/-- The observable result (R22): in `Done` the header and the lines, in `Failed` the error alone (R94),
in `Running` none yet. -/
def State.result (s : State) : Option CallResult :=
  match s.status with
  | .running => none
  | .done => some (.ok (header ++ String.join s.lines))
  | .failed => s.err.map .err

/-- The buffer with an instruction's bytes placed where the next step fetches, and the block `Running`,
so that there is a next step; `err` is `none` with it (R21; log entry 11). -/
def State.placeBytes (s : State) (bs : List Byte) : State :=
  { s with buf := s.buf.overlay s.pos bs, status := .running, err := none }

end Sys2Proof.Machine
end

