-- ==== Sys2Proof/Machine/Mov.lean ====
section
/-! DEFINITION. The five MOV forms (40_mov.md R78 to R82). The block is a decoder, not an emulator: what
a form does is build its decoded record (R76) and append that record's line (R74). It writes no 8086
register, flag or memory (R24, R25, R29). The record of each form is named, and its meaning emits it. -/

namespace Sys2Proof.Machine

/-- The register name `ax`, the accumulator of AM and MA whatever bit 0 of the first byte is (R80, R81). -/
def accumulator : Operand := .spec (.register .ax)

/-- `HandleIR` (R78): the immediate carries no size keyword. -/
def recordMovRImm (dst : Reg) (imm : Imm) : Record :=
  { form := .immediateToRegister
    dst := .spec (.register dst)
    src := .imm (immValue imm) .none }

/-- `HandleRM` (R79): the direction bit orders the two operands. -/
def recordMovRmR (dir : Direction) (reg : Reg) (rm : RmOperand) : Record :=
  match dir with
  | .regIsDestination =>
    { form := .registerOrMemoryToFromRegister, dst := .spec (.register reg), src := .spec (rmSpec rm) }
  | .regIsSource =>
    { form := .registerOrMemoryToFromRegister, dst := .spec (rmSpec rm), src := .spec (.register reg) }

/-- `HandleAM` (R80); `spare`, bit 0 of the first byte, is not read. -/
def recordMovAddrAx (_spare : BitVec 1) (addr : Half) : Record :=
  { form := .accumulatorToMemory, dst := .spec (.directMemory addr), src := accumulator }

/-- `HandleMA` (R81); `spare`, bit 0 of the first byte, is not read. -/
def recordMovAxAddr (_spare : BitVec 1) (addr : Half) : Record :=
  { form := .memoryToAccumulator, dst := accumulator, src := .spec (.directMemory addr) }

/-- `HandleIRM` (R82): the immediate always carries a size keyword, for a register destination too (C2);
`spare`, the reg field, is not read (R66). -/
def recordMovRmImm (_spare : BitVec 3) (dst : RmOperand) (imm : Imm) : Record :=
  { form := .immediateToRegisterOrMemory
    dst := .spec (rmSpec dst)
    src := .imm (immValue imm) (immSize imm) }

/-- `MOV r, imm` (R78). -/
def execMovRImm (dst : Reg) (imm : Imm) (s : State) : Host.Outcome State Fault Refusal :=
  .next (s.emit (recordMovRImm dst imm))

/-- `MOV r/m, r / MOV r, r/m` (R79). -/
def execMovRmR (dir : Direction) (reg : Reg) (rm : RmOperand) (s : State) :
    Host.Outcome State Fault Refusal :=
  .next (s.emit (recordMovRmR dir reg rm))

/-- `MOV [addr], ax` (R80). -/
def execMovAddrAx (spare : BitVec 1) (addr : Half) (s : State) : Host.Outcome State Fault Refusal :=
  .next (s.emit (recordMovAddrAx spare addr))

/-- `MOV ax, [addr]` (R81). -/
def execMovAxAddr (spare : BitVec 1) (addr : Half) (s : State) : Host.Outcome State Fault Refusal :=
  .next (s.emit (recordMovAxAddr spare addr))

/-- `MOV r/m, imm` (R82). -/
def execMovRmImm (spare : BitVec 3) (dst : RmOperand) (imm : Imm) (s : State) :
    Host.Outcome State Fault Refusal :=
  .next (s.emit (recordMovRmImm spare dst imm))

/-- The decoded record of an instruction (R76), one arm per form (R75). -/
def instrRecord : Instr → Record
  | .movRImm dst imm => recordMovRImm dst imm
  | .movRmR dir reg rm => recordMovRmR dir reg rm
  | .movAddrAx spare addr => recordMovAddrAx spare addr
  | .movAxAddr spare addr => recordMovAxAddr spare addr
  | .movRmImm spare dst imm => recordMovRmImm spare dst imm

/-- The line of an instruction (R77). -/
def instrLine (i : Instr) : String := renderLine (instrRecord i)

end Sys2Proof.Machine
end

