-- ==== Sys2Proof/Machine/Dispatch.lean ====
section
/-! DEFINITION. From an instruction to its meaning, one arm per form and no default arm (40_mov.md R75). -/

namespace Sys2Proof.Machine

def exec (i : Instr) (s : State) : Host.Outcome State Fault Refusal :=
  match i with
  | .movRImm dst imm => Sys2Proof.Machine.execMovRImm dst imm s
  | .movRmR dir reg rm => Sys2Proof.Machine.execMovRmR dir reg rm s
  | .movAddrAx spare addr => Sys2Proof.Machine.execMovAddrAx spare addr s
  | .movAxAddr spare addr => Sys2Proof.Machine.execMovAxAddr spare addr s
  | .movRmImm spare dst imm => Sys2Proof.Machine.execMovRmImm spare dst imm s

end Sys2Proof.Machine
end

