-- ==== Sys2Proof/Machine/Step.lean ====
section
/-! DEFINITION. One step of the driver (40_mov.md R74): it ends the call, or decodes one instruction,
or fails it. -/

namespace Sys2Proof.Machine

/-- `Step()` (R74). At the end of the buffer the call is done. Otherwise the next instruction is read
through the cursor, and its meaning runs from the state whose position is past its bytes; an error
raised on the way ends the step as R92 says. From `Done` and `Failed` no step is defined (R93). -/
def step (s : State) : Host.Outcome State Fault Refusal :=
  match s.status with
  | .done => .fault .noStepFromDone
  | .failed => .fault .noStepFromFailed
  | .running =>
    if s.cursor.atEnd then .next s.finish
    else
      match s.fetch with
      | .got i c => exec i (s.withPos c.pos)
      | .raised e c => .next ((s.withPos c.pos).raiseError e)
      | .outside => .fault .readOutsideBuffer

/-- The state in which the next step fetches and runs the instruction whose bits are `w`, numbered as
spec/opcode_table.json numbers them (log entry 11). -/
def State.withFetchWord (s : State) (nbits w : Nat) : State := s.placeBytes (wordBytes nbits w)

end Sys2Proof.Machine
end

