-- ==== Sys2Proof/Config.lean ====
section
/-! DEFINITION. What one implementation of the block fixes and the spec leaves open. The spec has one
such parameter, `BUF_LEN_MAX` (00_scope.md R7, 92_eei_decisions.md D3). -/

namespace Sys2Proof

/-- `BUF_LEN_MAX` (R7): the largest input length a bounded build of the block accepts, `none` for a
build without a bound. The spec leaves it OPEN, so it has no body (log entry 9). Only `Machine.start`
reads it: the decode step itself takes a buffer of any length. -/
opaque Config.bufLenMax : Option Nat

end Sys2Proof
end

