-- ==== Sys2Proof/Machine/Flags.lean ====
section
/-! DEFINITION. The block has no flags (10_state.md R25). What it has in their place is the read-only
view of its status and error as registers, `STATUS`, `ERR_CODE` and `ERR_INFO` (R19, R21, R27, R86).
They are computed from `State.status` and `State.err`, which store them once (log entry 14). -/

namespace Sys2Proof.Machine

/-- `STATUS[1:0]` (R19). -/
def State.statusReg (s : State) : BitVec 2 :=
  match s.status with
  | .running => 0
  | .done => 1
  | .failed => 2

/-- The `ERR_CODE` of an error (R86); the spec gives the register no width. -/
def errorCode : DecodeError → Nat
  | .truncatedInput => 1
  | .unsupportedOpcode _ => 2
  | .unsupportedAddressingMode _ => 3
  | .invalidEncoding => 4

/-- The `ERR_INFO[7:0]` of an error (R86). -/
def errorInfo : DecodeError → Byte
  | .truncatedInput => 0
  | .unsupportedOpcode b => b
  | .unsupportedAddressingMode m => m.setWidth 8
  | .invalidEncoding => 0

/-- `ERR_CODE` (R21): 0 for `none`. -/
def State.errCode (s : State) : Nat :=
  match s.err with
  | none => 0
  | some e => errorCode e

/-- `ERR_INFO[7:0]` (R21): 0 for `none`. -/
def State.errInfo (s : State) : Byte :=
  match s.err with
  | none => 0
  | some e => errorInfo e

end Sys2Proof.Machine
end

