-- ==== Sys2Proof/Machine/Call.lean ====
section
/-! DEFINITION. The transaction-level interface (70_reset_and_hazards.md R103, R104) and the whole decode
call (R107). -/

namespace Sys2Proof.Machine

/-- `Start(buf)` (R103) on a build of the block whose `BUF_LEN_MAX` is `max`: the buffer supplied and the
block reset. A bounded build refuses a longer buffer before reset completes (R7, D3). -/
def startBounded (max : Option Nat) (bs : List Byte) : Host.Outcome State Fault Refusal :=
  match max with
  | none => .next (State.load bs)
  | some m => if bs.length ≤ m then .next (State.load bs) else .refused (.bufferTooLong bs.length)

/-- `Start(buf)` on this build, whose bound the spec leaves OPEN (log entry 9). -/
def start (bs : List Byte) : Host.Outcome State Fault Refusal := startBounded Config.bufLenMax bs

/-- The loop of R107, `while status == Running: Step()`, for at most `fuel` steps. -/
def runCall : Nat → State → Host.Outcome State Fault Refusal
  | 0, s => .next s
  | fuel + 1, s =>
    match s.status with
    | .done => .next s
    | .failed => .next s
    | .running =>
      match step s with
      | .next t => runCall fuel t
      | .fault r => .fault r
      | .refused r => .refused r

/-- How many steps a call over `n` bytes takes at most (R108). -/
def stepBound (n : Nat) : Nat := n / 2 + 1

/-- `Decode(buf)` (R107): the result of the whole call. It is `none` only if the call were still running
after its bound of steps or had stopped, which R107 and R108 exclude. -/
def decodeCall (bs : List Byte) : Option CallResult :=
  match runCall (stepBound bs.length) (State.load bs) with
  | .next s => s.result
  | .fault _ => none
  | .refused _ => none

end Sys2Proof.Machine
end

