-- ==== Sys2Proof/Safety.lean ====
section
/-! DEFINITION. The terms claims are stated in: the bytes still to be read, the invariant of the state,
and what the accumulated lines are. -/

namespace Sys2Proof.Machine

/-- The bytes of the buffer from the cursor on. -/
def Cursor.unread (c : Cursor) : List Byte := c.buf.bytes.drop c.pos

/-- The bytes a step has still to read. -/
def State.unread (s : State) : List Byte := s.cursor.unread

/-- A state a step is defined from: `Running`, the buffer in canonical form, the cursor inside it. -/
abbrev State.Ready (s : State) : Prop :=
  s.status = .running ∧ s.buf.wf = true ∧ s.pos ≤ s.buf.size

/-- The error kinds an input can cause (R86, R90, R61). -/
def reachableError : DecodeError → Bool
  | .truncatedInput => true
  | .unsupportedOpcode b => (classify b).toOption.isNone
  | .unsupportedAddressingMode _ => false
  | .invalidEncoding => false

/-- The characters the block can emit (R45). -/
def outputChar (ch : Char) : Bool :=
  ('a' ≤ ch && ch ≤ 'z') || ('0' ≤ ch && ch ≤ '9') || ch == ' ' || ch == ',' || ch == '[' ||
    ch == ']' || ch == '+' || ch == '-' || ch == '\n'

/-- The invariant of every state of a call: the buffer in canonical form; the cursor inside it (R16) and
at its end in `Done` (R33), nothing said of it in `Failed`, where it is not observable (R92); an error
exactly in `Failed` (R21), of a kind an input can cause. -/
structure State.Inv (s : State) : Prop where
  bufWf : s.buf.wf = true
  posInside : s.status ≠ .failed → s.pos ≤ s.buf.size
  doneAtEnd : s.status = .done → s.pos = s.buf.size
  errOnlyFailed : s.status ≠ .failed → s.err = none
  failedHasErr : s.status = .failed → ∃ e, s.err = some e ∧ reachableError e = true

/-- What the accumulator means (R20): outside `Failed`, the bytes already read are the encodings of some
instructions, and the lines are exactly their lines, in buffer order. -/
def State.LinesMatchBytes (s : State) : Prop :=
  s.status ≠ .failed →
    ∃ is : List Instr, (∀ i ∈ is, i.wf = true) ∧
      s.buf.bytes.take s.pos = (is.map encode).flatten ∧ s.lines = is.map instrLine

end Sys2Proof.Machine
end

