-- ==== Sys2Proof/Certificates/Slice0/Obligations.lean ====
section
/-! DEFINITION. The statements for the provers, in the order: reset and interface, cursor and encoding,
operands and text, the five forms, the step, the invariants, the whole call. -/

open Sys2Proof Sys2Proof.Machine

/-! ### Reset, interface, registers -/

/-- 10_state.md section 6: every piece of state after reset, and the register views of it. The document
gives `pos`, `status` and `lines`; that `err` is `none`, and the register numbers, are the spec's own
decisions D12, D4 and D5. -/
def Obligations.ResetValues : Prop :=
  State.reset.pos = 0 ∧ State.reset.status = .running ∧ State.reset.lines = [] ∧ State.reset.err = none ∧
    State.reset.statusReg = 0 ∧ State.reset.errCode = 0 ∧ State.reset.errInfo = 0

/-- 70_reset_and_hazards.md section 2: a reset in any state puts every piece of state at its reset value,
and no result of the abandoned call is there (the spec's decision D11). That the buffer stays as the
host supplied it is the model's choice (log entry 10). -/
def Obligations.HostResetRestartsTheCall : Prop :=
  ∀ s : State,
    s.assertReset.pos = 0 ∧ s.assertReset.status = .running ∧ s.assertReset.lines = [] ∧
      s.assertReset.err = none ∧ s.assertReset.buf = s.buf ∧ s.assertReset.result = none

/-- 70_reset_and_hazards.md section 1, 00_scope.md section 3: `Start(buf)` gives the reset state over that
buffer where the build of the block has no bound or the buffer is within it; a bounded build refuses a
longer one. The interface and the refusal are the spec's own decisions D1 and D3 (log entry 9). -/
def Obligations.StartSuppliesBufferWithinBound : Prop :=
  (∀ (max : Option Nat) (bs : List Byte), (∀ m, max = some m → bs.length ≤ m) →
    startBounded max bs =
      .next { buf := Memory.ofBytes bs, pos := 0, status := .running, lines := [], err := none }) ∧
  (∀ (m : Nat) (bs : List Byte), m < bs.length →
    startBounded (some m) bs = .refused (.bufferTooLong bs.length)) ∧
  (∀ bs : List Byte, start bs = startBounded Config.bufLenMax bs)

/-- 10_state.md section 3: `STATUS[1:0]` is 0, 1 or 2 for Running, Done, Failed, and the value 3 is never
produced. The numbers are the spec's own decision D4. -/
def Obligations.StatusRegisterValues : Prop :=
  ∀ s : State,
    (s.statusReg = 0 ↔ s.status = .running) ∧ (s.statusReg = 1 ↔ s.status = .done) ∧
      (s.statusReg = 2 ↔ s.status = .failed) ∧ s.statusReg ≠ 3

/-- 60_exceptions.md section 1: `ERR_CODE` and `ERR_INFO[7:0]` for `none` and the four kinds. The numbers
are the spec's own decision D5. -/
def Obligations.ErrorRegisterValues : Prop :=
  ∀ s : State,
    (s.err = none → s.errCode = 0 ∧ s.errInfo = 0) ∧
    (s.err = some .truncatedInput → s.errCode = 1 ∧ s.errInfo = 0) ∧
    (∀ b, s.err = some (.unsupportedOpcode b) → s.errCode = 2 ∧ s.errInfo = b) ∧
    (∀ m, s.err = some (.unsupportedAddressingMode m) → s.errCode = 3 ∧ s.errInfo.toNat = m.toNat) ∧
    (s.err = some .invalidEncoding → s.errCode = 4 ∧ s.errInfo = 0)

/-- R22: the result is a function of the final state: none while `Running`, the header and the lines in
`Done`, in `Failed` exactly the error, so that two failed states with the same error have the same
result whatever their lines and position are. -/
def Obligations.ResultIsAFunctionOfTheFinalState : Prop :=
  (∀ s : State, s.status = .running → s.result = none) ∧
  (∀ s : State, s.status = .done → s.result = some (.ok ("bits 16\n\n" ++ String.join s.lines))) ∧
  (∀ (s : State) (e : DecodeError), s.status = .failed → s.err = some e → s.result = some (.err e)) ∧
  (∀ s t : State, s.status = .failed → t.status = .failed → s.err = t.err → s.result = t.result)

/-! ### The cursor and the encoding -/

/-- 20_memory.md section 2: a read gives the byte at the position and advances by exactly 1, or raises
`TruncatedInput` at the end of the buffer. That a failed read leaves the cursor where it was is
derived there and is the spec's own decision D17 (log entry 5); 93_implementation_defined.md row 3
leaves the position after an error open. -/
def Obligations.CursorReadsOneByte : Prop :=
  ∀ c : Cursor, c.buf.wf = true →
    (c.pos = c.buf.size → c.next = .raised .truncatedInput c) ∧
    (∀ b, c.buf.bytes[c.pos]? = some b → c.next = .got b ⟨c.buf, c.pos + 1⟩)

/-- 20_memory.md section 3: a 16-bit read takes two consecutive bytes, the first being bits 7..0. -/
def Obligations.SixteenBitReadsAreLittleEndian : Prop :=
  ∀ (c : Cursor) (lo hi : Byte), c.buf.wf = true → [lo, hi] <+: c.unread →
    ∃ h : Half, next16 c = .got h ⟨c.buf, c.pos + 2⟩ ∧ h.toNat = lo.toNat + 256 * hi.toNat

/-- R49: the five mask/value pairs in their priority order, else `UnsupportedOpcode`. -/
def Obligations.ClassifierTestsPairsInOrder : Prop :=
  ∀ b0 : Byte,
    classify b0 =
      if b0 &&& 0xF0#8 = 0xB0#8 then .ok .immediateToRegister
      else if b0 &&& 0xFC#8 = 0x88#8 then .ok .registerOrMemoryToFromRegister
      else if b0 &&& 0xFE#8 = 0xA2#8 then .ok .accumulatorToMemory
      else if b0 &&& 0xFE#8 = 0xA0#8 then .ok .memoryToAccumulator
      else if b0 &&& 0xFE#8 = 0xC6#8 then .ok .immediateToRegisterOrMemory
      else .error (.unsupportedOpcode b0)

/-- 30_encoding.md section 3, derived there from R49: no byte satisfies two pairs, so the result does not
depend on the order they are tried in. -/
def Obligations.ClassifierOrderChangesNoResult : Prop :=
  (∀ b0 : Byte, (classifierTable.filter fun r => r.accepts b0).length ≤ 1) ∧
  ∀ (rows : List ClassifierRow) (b0 : Byte), rows.Perm classifierTable →
    (rows.find? fun r => r.accepts b0) = classifierTable.find? fun r => r.accepts b0

/-- 30_encoding.md section 3, derived there from R49 and R47: the classification of all 256 first bytes
and the fields they carry; 26 of them classify. -/
def Obligations.ClassificationOfAllFirstBytes : Prop :=
  (∀ b0 : Byte,
    classify b0 =
      if 0x88#8 ≤ b0 ∧ b0 ≤ 0x8B#8 then .ok .registerOrMemoryToFromRegister
      else if 0xA0#8 ≤ b0 ∧ b0 ≤ 0xA1#8 then .ok .memoryToAccumulator
      else if 0xA2#8 ≤ b0 ∧ b0 ≤ 0xA3#8 then .ok .accumulatorToMemory
      else if 0xB0#8 ≤ b0 ∧ b0 ≤ 0xBF#8 then .ok .immediateToRegister
      else if 0xC6#8 ≤ b0 ∧ b0 ≤ 0xC7#8 then .ok .immediateToRegisterOrMemory
      else .error (.unsupportedOpcode b0)) ∧
  ([0x88#8, 0x89#8, 0x8A#8, 0x8B#8].map fun b => (dField b, wField b)) = [(0, 0), (0, 1), (1, 0), (1, 1)] ∧
  ([0xC6#8, 0xC7#8].map wField) = [0, 1] ∧
  (∀ code : BitVec 3, irW (0xB0#8 + code.setWidth 8) = 0 ∧ irReg (0xB0#8 + code.setWidth 8) = code) ∧
  (∀ code : BitVec 3, irW (0xB8#8 + code.setWidth 8) = 1 ∧ irReg (0xB8#8 + code.setWidth 8) = code) ∧
  ((List.range 256).filter fun n => (classify (BitVec.ofNat 8 n)).toOption.isSome).length = 26

/-- R53: the 16 register names by code and width. -/
def Obligations.RegisterTable : Prop :=
  ((List.range 8).map fun k => (regName (BitVec.ofNat 3 k) .byte).toOption.map regText) =
      ["al", "cl", "dl", "bl", "ah", "ch", "dh", "bh"].map some ∧
  ((List.range 8).map fun k => (regName (BitVec.ofNat 3 k) .word).toOption.map regText) =
      ["ax", "cx", "dx", "bx", "sp", "bp", "si", "di"].map some

/-- 30_encoding.md section 5: the 8 base expressions by r/m code. -/
def Obligations.BaseExpressionTable : Prop :=
  ((List.range 8).map fun k => baseText (baseExpr (BitVec.ofNat 3 k))) =
    ["bx + si", "bx + di", "bp + si", "bp + di", "si", "di", "bp", "bx"]

/-- 30_encoding.md section 1, 95_test_vectors.md: words written out from the format table decode to the
instruction they stand for, one of each form. -/
def Obligations.SampleWordsDecode : Prop :=
  decode ⟨Memory.ofBytes [0b1011_1_000, 0x01, 0x00], 0⟩ =
      .got (.movRImm .ax (.word 1)) ⟨Memory.ofBytes [0xB8, 0x01, 0x00], 3⟩ ∧
  decode ⟨Memory.ofBytes [0b1000_10_1_1, 0b01_000_001, 0x05], 0⟩ =
      .got (.movRmR .regIsDestination .ax (.based8 .bxDi 5)) ⟨Memory.ofBytes [0x8B, 0x41, 0x05], 3⟩ ∧
  decode ⟨Memory.ofBytes [0b1010_001_1, 0x0F, 0x00], 0⟩ =
      .got (.movAddrAx 1 15) ⟨Memory.ofBytes [0xA3, 0x0F, 0x00], 3⟩ ∧
  decode ⟨Memory.ofBytes [0b1010_000_1, 0x00, 0x01], 0⟩ =
      .got (.movAxAddr 1 256) ⟨Memory.ofBytes [0xA1, 0x00, 0x01], 3⟩ ∧
  decode ⟨Memory.ofBytes [0b1100_011_1, 0b10_000_101, 0x85, 0x03, 0x5B, 0x01], 0⟩ =
      .got (.movRmImm 0 (.based16 .di 901) (.word 347))
        ⟨Memory.ofBytes [0xC7, 0x85, 0x85, 0x03, 0x5B, 0x01], 6⟩

/-- Encode, then decode: every well-formed instruction comes back, with every operand and ignored bit, at
any offset of any buffer, and the cursor stands after its bytes. -/
def Obligations.DecodeOfEncodeGivesTheInstruction : Prop :=
  ∀ (c : Cursor) (i : Instr), c.buf.wf = true → i.wf = true → encode i <+: c.unread →
    decode c = .got i ⟨c.buf, c.pos + (encode i).length⟩

/-- Decode, then encode: what the decoder gives is well-formed, and the bytes it consumed are that
instruction's encoding, no byte more or fewer. -/
def Obligations.DecodedBytesAreTheEncoding : Prop :=
  ∀ (c c' : Cursor) (i : Instr), c.buf.wf = true → decode c = .got i c' →
    i.wf = true ∧ c.unread = encode i ++ c'.unread ∧ c'.buf = c.buf ∧
      c'.pos = c.pos + (encode i).length

/-- 30_encoding.md section 8, derived there: the length of a decoded instruction is fixed by its first two
bytes. -/
def Obligations.LengthFixedByFirstTwoBytes : Prop :=
  ∀ (c c' : Cursor) (i : Instr), c.buf.wf = true → decode c = .got i c' →
    ∃ b0 b1 rest form, c.unread = b0 :: b1 :: rest ∧ classify b0 = .ok form ∧
      (let D := if modField b1 = 0b11#2 then 0
        else if modField b1 = 0b00#2 then (if rmField b1 = 0b110#3 then 2 else 0)
        else if modField b1 = 0b01#2 then 1 else 2
       let len := c'.pos - c.pos
       match form with
       | .immediateToRegister => len = (if irW b0 = 0 then 2 else 3)
       | .registerOrMemoryToFromRegister => len = 2 + D
       | .accumulatorToMemory => len = 3
       | .memoryToAccumulator => len = 3
       | .immediateToRegisterOrMemory => len = 2 + D + (if wField b0 = 0 then 1 else 2))

/-- 30_encoding.md sections 4 and 6, derived there from R47: no input raises `InvalidEncoding` or
`UnsupportedAddressingMode`; the register table is total on 3-bit codes and no 2-bit mod reaches the
operand decoder's defensive arm. -/
def Obligations.DefensiveErrorsAreUnreachable : Prop :=
  (∀ (code : BitVec 3) (w : Width), ∃ r, regName code w = .ok r) ∧
  (∀ (mod m : BitVec 2) (rm : BitVec 3) (w : Width) (c c' : Cursor),
    decodeRM mod rm w c ≠ .raised (.unsupportedAddressingMode m) c') ∧
  (∀ (c c' : Cursor) (e : DecodeError), decode c = .raised e c' →
    e = .truncatedInput ∨ ∃ b, e = .unsupportedOpcode b)

/-- 10_state.md section 2, 20_memory.md section 2: from a cursor inside the buffer, reading an instruction
ends in a value or an error, never moves backward or past the end, and leaves the buffer as it was.
Where the cursor stands after an error rests on the spec's own decision D17 (log entry 5). -/
def Obligations.CursorMovesForwardInsideTheBuffer : Prop :=
  ∀ c : Cursor, c.buf.wf = true → c.pos ≤ c.buf.size →
    (∃ i c', decode c = .got i c' ∧ c'.buf = c.buf ∧ c.pos < c'.pos ∧ c'.pos ≤ c.buf.size) ∨
    (∃ e c', decode c = .raised e c' ∧ c'.buf = c.buf ∧ c.pos ≤ c'.pos ∧ c'.pos ≤ c.buf.size)

/-- 20_memory.md section 2: no look-ahead and no looking back. If an instruction is read from some bytes,
it is read from the same bytes wherever they stand and whatever is around them. -/
def Obligations.DecodingReadsOnlyTheInstructionsBytes : Prop :=
  ∀ (pre pre' bs post post' : List Byte) (i : Instr) (c : Cursor),
    decode ⟨Memory.ofBytes (pre ++ bs ++ post), pre.length⟩ = .got i c → c.pos = pre.length + bs.length →
    decode ⟨Memory.ofBytes (pre' ++ bs ++ post'), pre'.length⟩ =
      .got i ⟨Memory.ofBytes (pre' ++ bs ++ post'), pre'.length + bs.length⟩

/-! ### Operands and text -/

/-- R56: the operand of each addressing mode and the bytes it consumes, from any cursor inside a canonical
buffer; where fewer bytes remain than the mode requires, `TruncatedInput`. -/
def Obligations.AddressingModes : Prop :=
  ∀ (c : Cursor) (rm : BitVec 3) (w : Width), c.buf.wf = true → c.pos ≤ c.buf.size →
    (∃ r, regName rm w = .ok r ∧ ∃ m, decodeRM 0b11#2 rm w c = .got m c ∧ rmSpec m = .register r) ∧
    (∀ lo hi, rm = 0b110#3 → [lo, hi] <+: c.unread →
      ∃ m, decodeRM 0b00#2 rm w c = .got m ⟨c.buf, c.pos + 2⟩ ∧ rmSpec m = .directMemory (le16 lo hi)) ∧
    (rm ≠ 0b110#3 →
      ∃ m, decodeRM 0b00#2 rm w c = .got m c ∧ rmSpec m = .indexedMemory (baseExpr rm) 0) ∧
    (∀ b, [b] <+: c.unread →
      ∃ m, decodeRM 0b01#2 rm w c = .got m ⟨c.buf, c.pos + 1⟩ ∧
        rmSpec m = .indexedMemory (baseExpr rm) (sext16 b)) ∧
    (∀ lo hi, [lo, hi] <+: c.unread →
      ∃ m, decodeRM 0b10#2 rm w c = .got m ⟨c.buf, c.pos + 2⟩ ∧
        rmSpec m = .indexedMemory (baseExpr rm) (le16 lo hi)) ∧
    (∀ mod : BitVec 2, c.unread.length < dispLength mod rm →
      ∃ c', decodeRM mod rm w c = .raised .truncatedInput c')

/-- 30_encoding.md section 6, the two's complement reading being general knowledge there (log entry 15):
an 8-bit displacement is sign-extended, its value `b` below 0x80 and `b - 256` from there up; a 16-bit
one is read as two's complement. -/
def Obligations.DisplacementValues : Prop :=
  (∀ b : Byte, asI16 (sext16 b) = if b.toNat < 0x80 then (b.toNat : Int) else (b.toNat : Int) - 256) ∧
  (∀ lo hi : Byte,
    asI16 (le16 lo hi) =
      if hi.toNat < 0x80 then ((lo.toNat + 256 * hi.toNat : Nat) : Int)
      else ((lo.toNat + 256 * hi.toNat : Nat) : Int) - 65536)

/-- 30_encoding.md section 6, derived there from R56 and R69: with displacement 0 the three memory modes
give the same operand, rendered with no term. -/
def Obligations.ZeroDisplacementIsTheSameOperand : Prop :=
  ∀ b : Base,
    rmSpec (.based b) = .indexedMemory b 0 ∧ rmSpec (.based8 b 0) = .indexedMemory b 0 ∧
      rmSpec (.based16 b 0) = .indexedMemory b 0 ∧
      renderSpec (.indexedMemory b 0) = "[" ++ baseText b ++ "]"

/-- 30_encoding.md section 10: `dec(v)` is the base-10 spelling: digits only, at least one, no leading
zero, and their value is `v`. That 0 is spelled `"0"`, the one spelling that begins with 0, is for
immediates the spec's own decision D9 (log entry 8). -/
def Obligations.DecimalSpelling : Prop :=
  ∀ v : Nat,
    let ds := (dec v).toList
    ds ≠ [] ∧ (∀ ch ∈ ds, '0' ≤ ch ∧ ch ≤ '9') ∧ (ds.head? = some '0' → ds = ['0']) ∧
      ds.foldl (fun n ch => 10 * n + (ch.toNat - 48)) 0 = v

/-- 30_encoding.md section 10: the rendering of every operand. The value of a displacement is its two's
complement reading, which the spec marks as general knowledge (log entry 15); the magnitude of a
negative one is the mathematical one, and 32768 for -32768 is the spec's own decision D8 (log entry
8). -/
def Obligations.OperandRendering : Prop :=
  (∀ r, renderSpec (.register r) = regText r) ∧
  (∀ a : Half, renderSpec (.directMemory a) = "[" ++ dec a.toNat ++ "]") ∧
  (∀ (b : Base) (d : Half), d.toInt = 0 → renderSpec (.indexedMemory b d) = "[" ++ baseText b ++ "]") ∧
  (∀ (b : Base) (d : Half) (k : Nat), 0 < k → d.toInt = (k : Int) →
    renderSpec (.indexedMemory b d) = "[" ++ baseText b ++ " + " ++ dec k ++ "]") ∧
  (∀ (b : Base) (d : Half) (k : Nat), 0 < k → d.toInt = -(k : Int) →
    renderSpec (.indexedMemory b d) = "[" ++ baseText b ++ " - " ++ dec k ++ "]") ∧
  (∀ b : Base, renderSpec (.indexedMemory b 0x8000#16) = "[" ++ baseText b ++ " - 32768]") ∧
  (∀ v, render (.imm v .none) = dec v ∧ render (.imm v .byte) = "byte " ++ dec v ∧
    render (.imm v .word) = "word " ++ dec v)

/-- 30_encoding.md section 10: a line is `mov `, the destination, `, `, the source and one LF, with no
other LF and no trailing space. That it has only the characters the block can emit (no tab among them)
is 20_memory.md section 7, derived there from the renderings. -/
def Obligations.LineShape : Prop :=
  ∀ r : Record,
    renderLine r = "mov " ++ render r.dst ++ ", " ++ render r.src ++ "\n" ∧
    (∃ body, (renderLine r).toList = body ++ ['\n'] ∧ '\n' ∉ body ∧ body.getLast? ≠ some ' ') ∧
    ∀ ch ∈ (renderLine r).toList, outputChar ch = true

/-! ### The five forms: each one's own effect, on every operand, in every state -/

/-- 40_mov.md section 2: `exec` of MOV immediate to register completes: it appends its line, with no size
keyword, and changes nothing else. -/
def Obligations.ImmediateToRegisterCompletes : Prop :=
  ∀ (s : State) (dst : Reg),
    (∀ v : Byte, exec (.movRImm dst (.byte v)) s =
      .next { s with lines := s.lines ++ ["mov " ++ regText dst ++ ", " ++ dec v.toNat ++ "\n"] }) ∧
    (∀ v : Half, exec (.movRImm dst (.word v)) s =
      .next { s with lines := s.lines ++ ["mov " ++ regText dst ++ ", " ++ dec v.toNat ++ "\n"] })

/-- 40_mov.md section 3: `exec` of MOV register/memory to/from register completes: d = 1 makes the reg
operand the destination, d = 0 the source; it appends its line and changes nothing else. -/
def Obligations.RegisterOrMemoryMoveCompletes : Prop :=
  ∀ (s : State) (reg : Reg) (rm : RmOperand),
    exec (.movRmR .regIsDestination reg rm) s =
      .next { s with
        lines := s.lines ++ ["mov " ++ regText reg ++ ", " ++ renderSpec (rmSpec rm) ++ "\n"] } ∧
    exec (.movRmR .regIsSource reg rm) s =
      .next { s with
        lines := s.lines ++ ["mov " ++ renderSpec (rmSpec rm) ++ ", " ++ regText reg ++ "\n"] }

/-- 40_mov.md sections 4 and 5: `exec` of the two accumulator forms completes, with `ax` whatever the
ignored bit is: it appends its line and changes nothing else. -/
def Obligations.AccumulatorMovesComplete : Prop :=
  ∀ (s : State) (spare : BitVec 1) (addr : Half),
    exec (.movAddrAx spare addr) s =
      .next { s with lines := s.lines ++ ["mov [" ++ dec addr.toNat ++ "], ax\n"] } ∧
    exec (.movAxAddr spare addr) s =
      .next { s with lines := s.lines ++ ["mov ax, [" ++ dec addr.toNat ++ "]\n"] }

/-- 40_mov.md section 6: `exec` of MOV immediate to register or memory completes, whatever the ignored reg
field is: it appends its line, always with a size keyword, and changes nothing else. -/
def Obligations.ImmediateToRegisterOrMemoryCompletes : Prop :=
  ∀ (s : State) (spare : BitVec 3) (dst : RmOperand),
    (∀ v : Byte, exec (.movRmImm spare dst (.byte v)) s =
      .next { s with
        lines := s.lines ++ ["mov " ++ renderSpec (rmSpec dst) ++ ", byte " ++ dec v.toNat ++ "\n"] }) ∧
    (∀ v : Half, exec (.movRmImm spare dst (.word v)) s =
      .next { s with
        lines := s.lines ++ ["mov " ++ renderSpec (rmSpec dst) ++ ", word " ++ dec v.toNat ++ "\n"] })

/-- The frame of all five forms: whatever `exec` goes on to, the buffer reads as before at every offset,
position, status and error are as before, and one line was appended. -/
def Obligations.FormsChangeOnlyTheLines : Prop :=
  ∀ (i : Instr) (s t : State), exec i s = .next t →
    (∀ a, t.buf.read a = s.buf.read a) ∧ t.buf = s.buf ∧ t.pos = s.pos ∧ t.status = s.status ∧
      t.err = s.err ∧ ∃ line, t.lines = s.lines ++ [line]

/-- 30_encoding.md sections 7 and 9: the ignored bits change nothing: both values of bit 0 of an
accumulator form, and all 8 values of the IRM reg field, are the same instruction, from their bytes to
the state after the step. -/
def Obligations.IgnoredBitsChangeNothing : Prop :=
  (∀ (s t : State) (a : Half) (x y : BitVec 1), s.Ready → t = { s with buf := t.buf } → t.buf.wf = true →
    encode (.movAddrAx x a) <+: s.unread → encode (.movAddrAx y a) <+: t.unread →
    ∃ s', step s = .next s' ∧ step t = .next { s' with buf := t.buf }) ∧
  (∀ (s t : State) (a : Half) (x y : BitVec 1), s.Ready → t = { s with buf := t.buf } → t.buf.wf = true →
    encode (.movAxAddr x a) <+: s.unread → encode (.movAxAddr y a) <+: t.unread →
    ∃ s', step s = .next s' ∧ step t = .next { s' with buf := t.buf }) ∧
  (∀ (s t : State) (m : RmOperand) (v : Imm) (x y : BitVec 3), s.Ready → t = { s with buf := t.buf } →
    t.buf.wf = true → m.wf .byte = true →
    encode (.movRmImm x m v) <+: s.unread → encode (.movRmImm y m v) <+: t.unread →
    ∃ s', step s = .next s' ∧ step t = .next { s' with buf := t.buf })

/-! ### The step, from the bytes at the cursor -/

/-- 40_mov.md section 1: where the bytes at the cursor are a well-formed instruction, the step is that
instruction's `exec`, from the state whose position is past its bytes. -/
def Obligations.StepRunsTheDecodedInstruction : Prop :=
  ∀ (s : State) (i : Instr), s.Ready → i.wf = true → encode i <+: s.unread →
    step s = exec i { s with pos := s.pos + (encode i).length }

/-- R78: a step over `1011 w rrr`, imm: the unsigned immediate, no size keyword; `TruncatedInput` where
fewer immediate bytes follow than `w` requires. -/
def Obligations.StepOverImmediateToRegister : Prop :=
  ∀ (s : State) (code : BitVec 3), s.Ready →
    (∀ b : Byte, [(0b1011_0#5 ++ code : Byte), b] <+: s.unread →
      ∃ r, regName code .byte = .ok r ∧
        step s = .next { s with
          pos := s.pos + 2
          lines := s.lines ++ ["mov " ++ regText r ++ ", " ++ dec b.toNat ++ "\n"] }) ∧
    (∀ lo hi : Byte, [(0b1011_1#5 ++ code : Byte), lo, hi] <+: s.unread →
      ∃ r, regName code .word = .ok r ∧
        step s = .next { s with
          pos := s.pos + 3
          lines := s.lines ++
            ["mov " ++ regText r ++ ", " ++ dec (lo.toNat + 256 * hi.toNat) ++ "\n"] }) ∧
    (∀ (w : BitVec 1) (rest : List Byte), s.unread = (0b1011#4 ++ w ++ code : Byte) :: rest →
      rest.length < (if w = 0 then 1 else 2) →
      ∃ t, step s = .next t ∧ t.status = .failed ∧ t.err = some .truncatedInput ∧ t.lines = s.lines)

/-- R79: a step over `1000 10 d w`, `mm ggg bbb`, displacement. `disp` are the bytes the mode takes, and
the r/m operand is what the operand decoder reads from them alone. `TruncatedInput` where the second
byte or one of those is missing. -/
def Obligations.StepOverRegisterOrMemoryMove : Prop :=
  ∀ (s : State) (d w : BitVec 1) (mod : BitVec 2) (reg rm : BitVec 3), s.Ready →
    (∀ disp : List Byte, disp.length = dispLength mod rm →
      ([(0b100010#6 ++ d ++ w : Byte), (mod ++ reg ++ rm : Byte)] ++ disp) <+: s.unread →
      ∃ r m, regName reg (if w = 0 then .byte else .word) = .ok r ∧
        decodeRM mod rm (if w = 0 then .byte else .word) ⟨Memory.ofBytes disp, 0⟩ =
          .got m ⟨Memory.ofBytes disp, disp.length⟩ ∧
        step s = .next { s with
          pos := s.pos + 2 + disp.length
          lines := s.lines ++
            [if d = 1 then "mov " ++ regText r ++ ", " ++ renderSpec (rmSpec m) ++ "\n"
             else "mov " ++ renderSpec (rmSpec m) ++ ", " ++ regText r ++ "\n"] }) ∧
    ((s.unread = [(0b100010#6 ++ d ++ w : Byte)] ∨
        ∃ rest : List Byte, s.unread = [(0b100010#6 ++ d ++ w : Byte), (mod ++ reg ++ rm : Byte)] ++ rest ∧
          rest.length < dispLength mod rm) →
      ∃ t, step s = .next t ∧ t.status = .failed ∧ t.err = some .truncatedInput ∧ t.lines = s.lines)

/-- R80: a step over `1010 001 ?`, address: `ax` is the source for both values of the last bit.
`TruncatedInput` where fewer than 2 bytes follow. -/
def Obligations.StepOverAccumulatorToMemory : Prop :=
  ∀ (s : State) (x : BitVec 1), s.Ready →
    (∀ lo hi : Byte, [(0b1010001#7 ++ x : Byte), lo, hi] <+: s.unread →
      step s = .next { s with
        pos := s.pos + 3
        lines := s.lines ++ ["mov [" ++ dec (lo.toNat + 256 * hi.toNat) ++ "], ax\n"] }) ∧
    (∀ rest : List Byte, s.unread = (0b1010001#7 ++ x : Byte) :: rest → rest.length < 2 →
      ∃ t, step s = .next t ∧ t.status = .failed ∧ t.err = some .truncatedInput ∧ t.lines = s.lines)

/-- R81: a step over `1010 000 ?`, address: `ax` is the destination for both values of the last bit.
`TruncatedInput` where fewer than 2 bytes follow. -/
def Obligations.StepOverMemoryToAccumulator : Prop :=
  ∀ (s : State) (x : BitVec 1), s.Ready →
    (∀ lo hi : Byte, [(0b1010000#7 ++ x : Byte), lo, hi] <+: s.unread →
      step s = .next { s with
        pos := s.pos + 3
        lines := s.lines ++ ["mov ax, [" ++ dec (lo.toNat + 256 * hi.toNat) ++ "]\n"] }) ∧
    (∀ rest : List Byte, s.unread = (0b1010000#7 ++ x : Byte) :: rest → rest.length < 2 →
      ∃ t, step s = .next t ∧ t.status = .failed ∧ t.err = some .truncatedInput ∧ t.lines = s.lines)

/-- 40_mov.md section 6: a step over `1100 011 w`, `mm xxx bbb`, displacement, imm: the immediate follows
the displacement and carries its size keyword. That the operand's width is 0 whatever `w` is, also for
mod = 11 with `w = 1`, is the spec's own decision D20 (log entry 16). `TruncatedInput` where the
second byte, a displacement or address byte, or an immediate byte is missing. -/
def Obligations.StepOverImmediateToRegisterOrMemory : Prop :=
  ∀ (s : State) (mod : BitVec 2) (x rm : BitVec 3), s.Ready →
    (∀ disp : List Byte, disp.length = dispLength mod rm →
      ∃ m, decodeRM mod rm .byte ⟨Memory.ofBytes disp, 0⟩ = .got m ⟨Memory.ofBytes disp, disp.length⟩ ∧
        (∀ v : Byte, ([0b11000110#8, (mod ++ x ++ rm : Byte)] ++ disp ++ [v]) <+: s.unread →
          step s = .next { s with
            pos := s.pos + 3 + disp.length
            lines := s.lines ++
              ["mov " ++ renderSpec (rmSpec m) ++ ", byte " ++ dec v.toNat ++ "\n"] }) ∧
        (∀ lo hi : Byte, ([0b11000111#8, (mod ++ x ++ rm : Byte)] ++ disp ++ [lo, hi]) <+: s.unread →
          step s = .next { s with
            pos := s.pos + 4 + disp.length
            lines := s.lines ++
              ["mov " ++ renderSpec (rmSpec m) ++ ", word " ++ dec (lo.toNat + 256 * hi.toNat) ++
                "\n"] })) ∧
    (∀ w : BitVec 1,
      (s.unread = [(0b1100011#7 ++ w : Byte)] ∨
        ∃ rest : List Byte, s.unread = [(0b1100011#7 ++ w : Byte), (mod ++ x ++ rm : Byte)] ++ rest ∧
          rest.length < dispLength mod rm + (if w = 0 then 1 else 2)) →
      ∃ t, step s = .next t ∧ t.status = .failed ∧ t.err = some .truncatedInput ∧ t.lines = s.lines)

/-- 30_encoding.md section 9: in IRM with mod = 11 the operand is an 8-bit register name, also with `w =
1` and a 16-bit immediate. The reading is the spec's own decision D20 (log entry 16). -/
def Obligations.ImmediateFormForcesByteRegister : Prop :=
  ∀ (s : State) (x rm : BitVec 3) (lo hi : Byte), s.Ready →
    [0xC7#8, (0b11#2 ++ x ++ rm : Byte), lo, hi] <+: s.unread →
    ∃ r, regName rm .byte = .ok r ∧ r.width = .byte ∧
      step s = .next { s with
        pos := s.pos + 4
        lines := s.lines ++
          ["mov " ++ regText r ++ ", word " ++ dec (lo.toNat + 256 * hi.toNat) ++ "\n"] }

/-- 40_mov.md section 1: at the end of the buffer the step ends the call in `Done`, reading and changing
nothing else. -/
def Obligations.StepAtEndOfBufferIsDone : Prop :=
  ∀ s : State, s.status = .running → s.pos = s.buf.size → step s = .next { s with status := .done }

/-- R88: a first byte outside the five sets fails the call with `UnsupportedOpcode` of that byte, whether
or not bytes follow; no line is appended. The position after an error is not observable, so nothing is
said of it. -/
def Obligations.UnsupportedFirstByteFailsTheCall : Prop :=
  ∀ (s : State) (b0 : Byte) (rest : List Byte), s.Ready → s.unread = b0 :: rest →
    ¬(0x88#8 ≤ b0 ∧ b0 ≤ 0x8B#8) → ¬(0xA0#8 ≤ b0 ∧ b0 ≤ 0xA3#8) → ¬(0xB0#8 ≤ b0 ∧ b0 ≤ 0xBF#8) →
    ¬(0xC6#8 ≤ b0 ∧ b0 ≤ 0xC7#8) →
    ∃ p t, step s = .next t ∧
      t = { s with pos := p, status := .failed, err := some (.unsupportedOpcode b0) } ∧
      t.result = some (.err (.unsupportedOpcode b0))

/-- R87: where the buffer ends inside an instruction, the step fails the call with `TruncatedInput`, and
no line is appended; and a step that fails so has an instruction's classified first byte before it,
never an empty rest of the buffer. -/
def Obligations.TruncatedInstructionFailsTheCall : Prop :=
  (∀ (s : State) (i : Instr), s.Ready → i.wf = true → s.unread ≠ [] → s.unread <+: encode i →
    s.unread ≠ encode i →
    ∃ p t, step s = .next t ∧
      t = { s with pos := p, status := .failed, err := some .truncatedInput } ∧
      t.result = some (.err .truncatedInput)) ∧
  (∀ s t : State, s.Ready → step s = .next t → t.status = .failed → t.err = some .truncatedInput →
    ∃ b0 rest form, s.unread = b0 :: rest ∧ classify b0 = .ok form)

/-- R92: any error raised in a step ends the call in `Failed` with that error; no line is appended,
nothing else is written, and the result is the error alone. -/
def Obligations.AnyErrorEndsTheCall : Prop :=
  ∀ (s : State) (e : DecodeError) (c : Cursor), s.status = .running → s.pos ≠ s.buf.size →
    decode ⟨s.buf, s.pos⟩ = .raised e c →
    ∃ p t, step s = .next t ∧ t = { s with pos := p, status := .failed, err := some e } ∧
      t.result = some (.err e)

/-- R93: no step goes on from `Done` or `Failed`. -/
def Obligations.TerminalStatesHaveNoStep : Prop :=
  ∀ s t : State, s.status = .done ∨ s.status = .failed → step s ≠ .next t

/-- 40_mov.md section 1, 70_reset_and_hazards.md section 3: from `Running`, with the cursor inside a
canonical buffer, the step always goes on, and to one of its three ends: the instruction whose bytes
stood at the cursor, `Done`, or an error of a kind an input can cause. -/
def Obligations.EveryReadyStepGoesOn : Prop :=
  ∀ s : State, s.Ready →
    ∃ t, step s = .next t ∧
      ((∃ i, i.wf = true ∧ encode i <+: s.unread ∧ t.status = .running ∧ t.err = s.err ∧
          t.pos = s.pos + (encode i).length ∧ t.lines = s.lines ++ [instrLine i]) ∨
        (s.unread = [] ∧ t = { s with status := .done }) ∨
        (∃ e, reachableError e = true ∧ t.status = .failed ∧ t.err = some e ∧ t.lines = s.lines))

/-- 10_state.md sections 1 and 4: over any step the buffer is unchanged; a successful step appends exactly
one line, the ending step and a failing step append nothing, and `err` is written only by a failing
step. -/
def Obligations.StepFrame : Prop :=
  ∀ s t : State, step s = .next t →
    t.buf = s.buf ∧ s.status = .running ∧
      ((t.status = .running ∧ t.err = s.err ∧ ∃ line, t.lines = s.lines ++ [line]) ∨
        (t.status = .done ∧ t.err = s.err ∧ t.lines = s.lines ∧ t.pos = s.pos) ∨
        (t.status = .failed ∧ t.lines = s.lines ∧ ∃ e, t.err = some e))

/-- 70_reset_and_hazards.md section 3, derived there: a step that leaves the call running consumes at
least 2 bytes, and at most 6. -/
def Obligations.RunningStepConsumesTwoToSixBytes : Prop :=
  ∀ s t : State, s.buf.wf = true → step s = .next t → t.status = .running →
    s.pos + 2 ≤ t.pos ∧ t.pos ≤ s.pos + 6 ∧ t.pos ≤ t.buf.size

/-- The model's own interface (log entry 11), in any state: the very next step runs exactly the
instruction the decoder reads from the word, from the position past its bytes. -/
def Obligations.PlacedWordIsTheNextInstruction : Prop :=
  ∀ (s : State) (nbits w : Nat) (i : Instr), decodeTableWord nbits w = some i →
    step (s.withFetchWord nbits w) =
      exec i { s.withFetchWord nbits w with pos := s.pos + (encode i).length }

/-! ### Invariants -/

/-- The invariant (10_state.md) holds at reset and wherever a call begins. -/
def Obligations.InvariantHoldsAtReset : Prop :=
  State.reset.Inv ∧ ∀ bs : List Byte, (State.load bs).Inv

/-- 10_state.md sections 2 to 4: every step keeps the invariant: the canonical buffer, the cursor inside
it, an error exactly in `Failed` and of a kind an input can cause. -/
def Obligations.StepKeepsTheInvariant : Prop :=
  ∀ s t : State, s.Inv → step s = .next t → t.Inv

/-- 10_state.md section 4: every step keeps the accumulator's meaning: the bytes read so far are the
encodings of some instructions, and the lines are exactly theirs, in buffer order. -/
def Obligations.StepKeepsLinesMatchingBytes : Prop :=
  ∀ s t : State, s.Inv → s.LinesMatchBytes → step s = .next t → t.LinesMatchBytes

/-! ### The whole call -/

/-- R109: over the empty input the first step ends the call in `Done`, and the result is exactly the
header. -/
def Obligations.EmptyInputGivesTheHeader : Prop :=
  step (State.load []) = .next { State.load [] with status := .done } ∧
    decodeCall [] = some (.ok "bits 16\n\n")

/-- 70_reset_and_hazards.md section 3, derived there: every call ends in `Done` or `Failed` after at most
`floor(n / 2) + 1` steps, and stays there. -/
def Obligations.CallEndsWithinItsBound : Prop :=
  ∀ bs : List Byte,
    ∃ t, (t.status = .done ∨ t.status = .failed) ∧
      ∀ fuel, bs.length / 2 + 1 ≤ fuel → runCall fuel (State.load bs) = .next t

/-- 70_reset_and_hazards.md section 3: the call is total: every byte sequence has a result, a text or an
error. -/
def Obligations.EveryCallHasAResult : Prop :=
  ∀ bs : List Byte,
    (∃ text, decodeCall bs = some (.ok text)) ∨
      ∃ e, decodeCall bs = some (.err e) ∧ reachableError e = true

/-- 70_reset_and_hazards.md section 3, derived there: a call ends in `Done` exactly when the buffer is a
concatenation of complete instructions; then the cursor is at its end and the text is the header and
one line per instruction, in buffer order. -/
def Obligations.CallIsDoneExactlyOnWholeInstructions : Prop :=
  (∀ (bs : List Byte) (text : String),
    decodeCall bs = some (.ok text) ↔
      ∃ is : List Instr, (∀ i ∈ is, i.wf = true) ∧ bs = (is.map encode).flatten ∧
        text = "bits 16\n\n" ++ String.join (is.map instrLine)) ∧
  (∀ is : List Instr, (∀ i ∈ is, i.wf = true) →
    ∃ t, runCall (is.length + 1) (State.load (is.map encode).flatten) = .next t ∧ t.status = .done ∧
      t.pos = (is.map encode).flatten.length ∧ t.lines.length = is.length)

/-- 60_exceptions.md section 2, derived there: the error reported is the first one in the order the bytes
are read: an unsupported first byte whatever follows it, or `TruncatedInput` where the buffer ends
inside an instruction, after any number of complete ones; of those no output is left. -/
def Obligations.FirstErrorIsReported : Prop :=
  (∀ (is : List Instr) (b0 : Byte) (rest : List Byte), (∀ i ∈ is, i.wf = true) →
    classify b0 = .error (.unsupportedOpcode b0) →
    decodeCall ((is.map encode).flatten ++ b0 :: rest) = some (.err (.unsupportedOpcode b0))) ∧
  (∀ (is : List Instr) (i : Instr) (part : List Byte), (∀ j ∈ is, j.wf = true) → i.wf = true →
    part ≠ [] → part <+: encode i → part ≠ encode i →
    decodeCall ((is.map encode).flatten ++ part) = some (.err .truncatedInput))

/-- Two buffers that each decode in full decode in full when joined, to the lines of both in order. -/
def Obligations.JoinedBuffersJoinTheirLines : Prop :=
  ∀ (xs ys : List Byte) (bx bY : String),
    decodeCall xs = some (.ok ("bits 16\n\n" ++ bx)) → decodeCall ys = some (.ok ("bits 16\n\n" ++ bY)) →
    decodeCall (xs ++ ys) = some (.ok ("bits 16\n\n" ++ bx ++ bY))

/-- 20_memory.md section 7, 30_encoding.md section 10: the text of a successful call begins with the
header, has only the characters the block can emit, and one LF for each line beyond the header's two. -/
def Obligations.OutputTextShape : Prop :=
  ∀ (bs : List Byte) (text : String), decodeCall bs = some (.ok text) →
    (∃ body, text.toList = "bits 16\n\n".toList ++ body ∧ (body = [] ∨ body.getLast? = some '\n')) ∧
    (∀ ch ∈ text.toList, outputChar ch = true) ∧
    ∃ t, runCall (bs.length / 2 + 1) (State.load bs) = .next t ∧
      text.toList.count '\n' = 2 + t.lines.length
end

