-- ==== Sys2Proof/Laws/Memory.lean ====
section
/-! SUPPORT. The input buffer: its canonical form, what a read answers, and that every operation that
builds a buffer builds one in canonical form. -/

namespace Sys2Proof.Machine

theorem Memory.bytes_cellsFrom (a : Nat) (bs : List Byte) : (Memory.cellsFrom a bs).bytes = bs := by
  induction bs generalizing a with
  | nil => rfl
  | cons b bs ih => simpa [Memory.cellsFrom, Memory.bytes] using ih (a + 1)

@[simp] theorem Memory.bytes_ofBytes (bs : List Byte) : (Memory.ofBytes bs).bytes = bs :=
  Memory.bytes_cellsFrom 0 bs

@[simp] theorem Memory.length_bytes (m : Memory) : m.bytes.length = m.size := by
  simp [Memory.bytes, Memory.size]

@[simp] theorem Memory.size_ofBytes (bs : List Byte) : (Memory.ofBytes bs).size = bs.length := by
  rw [← Memory.length_bytes, Memory.bytes_ofBytes]

theorem Memory.wfFrom_cellsFrom (a : Nat) (bs : List Byte) : Memory.wfFrom a (Memory.cellsFrom a bs) = true := by
  induction bs generalizing a with
  | nil => rfl
  | cons b bs ih => simp [Memory.cellsFrom, Memory.wfFrom, ih]

/-- A byte sequence is laid out in canonical form. -/
@[simp] theorem Memory.wf_ofBytes (bs : List Byte) : (Memory.ofBytes bs).wf = true :=
  Memory.wfFrom_cellsFrom 0 bs

/-- Placing bytes keeps the canonical form. -/
@[simp] theorem Memory.wf_overlay (m : Memory) (a : Nat) (bs : List Byte) : (m.overlay a bs).wf = true :=
  Memory.wf_ofBytes _

theorem Memory.cellsFrom_bytes {a : Nat} {m : Memory} (h : Memory.wfFrom a m = true) :
    Memory.cellsFrom a m.bytes = m := by
  induction m generalizing a with
  | nil => rfl
  | cons cell m ih =>
    obtain ⟨k, b⟩ := cell
    simp only [Memory.wfFrom, Bool.and_eq_true, beq_iff_eq] at h
    obtain ⟨rfl, hm⟩ := h
    simpa [Memory.bytes, Memory.cellsFrom] using ih hm

/-- A buffer in canonical form is the layout of its own bytes: equal bytes, equal buffers. -/
theorem Memory.ofBytes_bytes {m : Memory} (h : m.wf = true) : Memory.ofBytes m.bytes = m :=
  Memory.cellsFrom_bytes h

theorem Memory.read_cellsFrom (a k : Nat) (bs : List Byte) : (Memory.cellsFrom a bs).read (a + k) = bs[k]? := by
  induction bs generalizing a k with
  | nil => rfl
  | cons b bs ih =>
    cases k with
    | zero => simp [Memory.cellsFrom, Memory.read]
    | succ k =>
      have := ih (a + 1) k
      rw [Nat.add_right_comm, Nat.add_assoc] at this
      simpa [Memory.cellsFrom, Memory.read] using this

/-- `MemRead` of a buffer in canonical form: the byte at that offset, and nothing outside `0 .. n-1`. -/
theorem Memory.read_eq_getElem? {m : Memory} (h : m.wf = true) (a : Nat) : m.read a = m.bytes[a]? := by
  conv_lhs => rw [← Memory.ofBytes_bytes h]
  simpa [Memory.ofBytes] using Memory.read_cellsFrom 0 a m.bytes

/-- The bytes placed stand where they were placed, before whatever follows. -/
theorem Memory.drop_overlay (m : Memory) (a : Nat) (bs : List Byte) :
    (m.overlay a bs).bytes.drop a = bs ++ m.bytes.drop (a + bs.length) := by
  rw [Memory.overlay, Memory.bytes_ofBytes, List.append_assoc]
  refine List.drop_left' ?_
  simp
  omega

end Sys2Proof.Machine
end

