-- ==== Sys2Proof/Laws/Cursor.lean ====
section
/-! SUPPORT. What a read through the cursor can come to: forward from the bytes it meets, and backward
from the value it gave. -/

namespace Sys2Proof.Machine

@[simp] theorem Read.andThen_got {α β : Type} (a : α) (c : Cursor) (f : α → Cursor → Read β) :
    (Read.got a c).andThen f = f a c := rfl
@[simp] theorem Read.andThen_raised {α β : Type} (e : DecodeError) (c : Cursor) (f : α → Cursor → Read β) :
    (Read.raised e c).andThen f = .raised e c := rfl
@[simp] theorem Read.andThen_outside {α β : Type} (f : α → Cursor → Read β) :
    (Read.outside : Read α).andThen f = .outside := rfl
@[simp] theorem Read.ofExcept_ok {α : Type} (a : α) (c : Cursor) : Read.ofExcept (.ok a) c = .got a c := rfl
@[simp] theorem Read.ofExcept_error {α : Type} (e : DecodeError) (c : Cursor) :
    (Read.ofExcept (.error e) c : Read α) = .raised e c := rfl

/-- A value after two reads: the first gave a value, and the second gave this one from there. -/
theorem Read.andThen_eq_got {α β : Type} {r : Read α} {f : α → Cursor → Read β} {b : β} {c' : Cursor} :
    r.andThen f = .got b c' ↔ ∃ a c, r = .got a c ∧ f a c = .got b c' := by
  cases r <;> simp

/-- An error after two reads: the first raised it, or the second did. -/
theorem Read.andThen_eq_raised {α β : Type} {r : Read α} {f : α → Cursor → Read β} {e : DecodeError}
    {c' : Cursor} :
    r.andThen f = .raised e c' ↔ r = .raised e c' ∨ ∃ a c, r = .got a c ∧ f a c = .raised e c' := by
  cases r <;> simp

/-- Two reads leave the buffer only where one of them does. -/
theorem Read.andThen_eq_outside {α β : Type} {r : Read α} {f : α → Cursor → Read β} :
    r.andThen f = .outside ↔ r = .outside ∨ ∃ a c, r = .got a c ∧ f a c = .outside := by
  cases r <;> simp

theorem Read.ofExcept_eq_got {α : Type} {x : Except DecodeError α} {a : α} {c c' : Cursor} :
    Read.ofExcept x c = .got a c' ↔ x = .ok a ∧ c = c' := by
  cases x <;> simp

/-- The cursor `k` bytes further. -/
abbrev Cursor.advance (c : Cursor) (k : Nat) : Cursor := ⟨c.buf, c.pos + k⟩

theorem Cursor.unread_advance {c : Cursor} {bs rest : List Byte} (h : c.unread = bs ++ rest) :
    (c.advance bs.length).unread = rest := by
  simp only [Cursor.unread] at h ⊢
  rw [← List.drop_drop, h, List.drop_left]

theorem Cursor.atEnd_iff (c : Cursor) : c.atEnd = true ↔ c.pos = c.buf.size := by
  simp [Cursor.atEnd]

/-- `Next()` where a byte remains (R31). -/
theorem Cursor.next_of_cons {c : Cursor} {b : Byte} {rest : List Byte} (hwf : c.buf.wf = true)
    (h : c.unread = b :: rest) : c.next = .got b (c.advance 1) := by
  have hget : c.buf.bytes[c.pos]? = some b := by
    have := congrArg List.head? h
    simpa [Cursor.unread] using this
  have hlt : c.pos < c.buf.size := by
    have := (List.getElem?_eq_some_iff.mp hget).1
    simpa using this
  have hend : c.atEnd = false := by simp [Cursor.atEnd]; omega
  simp [Cursor.next, hend, Memory.read_eq_getElem? hwf, hget]

/-- `Next()` where none does (R31). -/
theorem Cursor.next_at_end {c : Cursor} (h : c.pos = c.buf.size) : c.next = .raised .truncatedInput c := by
  simp [Cursor.next, (Cursor.atEnd_iff c).2 h]

/-- All `Next()` can come to from a cursor inside a canonical buffer. -/
theorem Cursor.next_cases {c : Cursor} (hwf : c.buf.wf = true) (hpos : c.pos ≤ c.buf.size) :
    (∃ b rest, c.unread = b :: rest ∧ c.next = .got b (c.advance 1)) ∨
      (c.unread = [] ∧ c.next = .raised .truncatedInput c) := by
  cases h : c.unread with
  | cons b rest => exact .inl ⟨b, rest, rfl, Cursor.next_of_cons hwf h⟩
  | nil =>
    refine .inr ⟨rfl, Cursor.next_at_end ?_⟩
    simp only [Cursor.unread, List.drop_eq_nil_iff, Memory.length_bytes] at h
    omega

/-- A byte `Next()` gave was the first unread one (R31, R33). -/
theorem Cursor.next_eq_got {c c' : Cursor} {b : Byte} (hwf : c.buf.wf = true) (h : c.next = .got b c') :
    c' = c.advance 1 ∧ c.unread = b :: c'.unread := by
  unfold Cursor.next at h
  split at h
  · cases h
  · split at h
    · rename_i a hr
      cases h
      rw [Memory.read_eq_getElem? hwf] at hr
      obtain ⟨hlt, rfl⟩ := List.getElem?_eq_some_iff.mp hr
      exact ⟨rfl, by simp [Cursor.unread]⟩
    · cases h

/-- `Next()` raises nothing but `TruncatedInput`, and then at the end of the buffer, where it stays (R31). -/
theorem Cursor.next_eq_raised {c c' : Cursor} {e : DecodeError} (h : c.next = .raised e c') :
    e = .truncatedInput ∧ c' = c ∧ c.pos = c.buf.size := by
  unfold Cursor.next at h
  split at h
  · rename_i hend
    cases h
    exact ⟨rfl, rfl, (Cursor.atEnd_iff c).1 hend⟩
  · split at h <;> cases h

end Sys2Proof.Machine
end

