-- ==== Sys2Proof/Laws/Decode.lean ====
section
/-! SUPPORT. The tables and the operand readers: each table undoes its encoder, and each reader takes
exactly the bytes its encoder writes. -/

namespace Sys2Proof

open Machine (Memory Cursor Read)

@[simp] theorem regName_code (r : Reg) : regName r.code r.width = .ok r := by cases r <;> rfl

/-- A name the register table gives has the width asked for and the code looked up (R53). -/
theorem regName_eq_ok {code : BitVec 3} {w : Width} {r : Reg} (h : regName code w = .ok r) :
    r.width = w ∧ r.code = code := by
  have all : ∀ code : BitVec 3, ∀ w ∈ [Width.byte, Width.word],
      (regName code w).toOption.all (fun r => r.width == w && r.code == code) = true := by decide
  have := all code w (by cases w <;> simp)
  rw [h] at this
  simpa [Except.toOption] using this

/-- The register table is total on 3-bit codes: its defensive arm is never reached (R54). -/
theorem regName_total (code : BitVec 3) (w : Width) : ∃ r, regName code w = .ok r := by
  have all : ∀ code : BitVec 3, ∀ w ∈ [Width.byte, Width.word], (regName code w).toOption.isSome = true := by
    decide
  have := all code w (by cases w <;> simp)
  cases h : regName code w with
  | ok r => exact ⟨r, rfl⟩
  | error e => rw [h] at this; cases this

@[simp] theorem baseExpr_code (b : Base) : baseExpr b.code = b := by cases b <;> rfl

theorem code_baseExpr (rm : BitVec 3) : (baseExpr rm).code = rm := by
  revert rm; decide

theorem Base.code_eq_bp {b : Base} : b.code = 0b110#3 ↔ b = .bp := by cases b <;> decide

@[simp] theorem Width.ofBit_bit (w : Width) : Width.ofBit w.bit = w := by cases w <;> rfl
@[simp] theorem Width.bit_ofBit (b : BitVec 1) : (Width.ofBit b).bit = b := by revert b; decide
@[simp] theorem Direction.ofBit_bit (d : Direction) : Direction.ofBit d.bit = d := by cases d <;> rfl
@[simp] theorem Direction.bit_ofBit (b : BitVec 1) : (Direction.ofBit b).bit = b := by revert b; decide

/-- `le16` puts the two bytes `encodeHalf` writes back together (R34). -/
@[simp] theorem le16_halves (h : Half) : le16 (h.extractLsb' 0 8) (h.extractLsb' 8 8) = h := by
  ext i hi
  by_cases h8 : i < 8
  · simp [le16, h8, hi]
  · have h2 : 8 + (i - 8) = i := by omega
    simp [le16, h8, hi, h2]
    omega

/-- And `encodeHalf` takes them apart again. -/
theorem encodeHalf_le16 (lo hi : Byte) : encodeHalf (le16 lo hi) = [lo, hi] := by
  have hlo : (le16 lo hi).extractLsb' 0 8 = lo := by
    ext i hi'
    have : i < 16 := by omega
    simp [le16, hi', this]
  have hhi : (le16 lo hi).extractLsb' 8 8 = hi := by
    ext i hi'
    have h2 : 8 + i < 16 := by omega
    simp [le16, h2, BitVec.getLsbD_eq_getElem hi']
  rw [encodeHalf, hlo, hhi]

@[simp] theorem length_encodeHalf (h : Half) : (encodeHalf h).length = 2 := rfl

/-! ### Readers that take exactly what their encoder writes -/

/-- `f` reads the values that meet `ok`, and takes exactly the bytes `enc` writes for the value it gives. -/
structure Reads {α : Type} (f : Cursor → Read α) (enc : α → List Byte) (ok : α → Prop) : Prop where
  forward : ∀ {c : Cursor} {a : α} {rest : List Byte}, c.buf.wf = true → ok a → c.unread = enc a ++ rest →
    f c = .got a (c.advance (enc a).length)
  backward : ∀ {c c' : Cursor} {a : α}, c.buf.wf = true → f c = .got a c' →
    ok a ∧ c' = c.advance (enc a).length ∧ c.unread = enc a ++ c'.unread
  raised : ∀ {c c' : Cursor} {e : DecodeError}, c.pos ≤ c.buf.size → c.buf.wf = true → f c = .raised e c' →
    e = .truncatedInput ∧ c'.buf = c.buf ∧ c'.pos = c.buf.size
  inside : ∀ {c : Cursor}, c.pos ≤ c.buf.size → c.buf.wf = true → f c ≠ .outside

/-- Where a value was read, the cursor is still inside the buffer. -/
theorem Machine.Cursor.advance_inside {c : Cursor} {bs rest : List Byte} (hpos : c.pos ≤ c.buf.size)
    (h : c.unread = bs ++ rest) : (c.advance bs.length).pos ≤ (c.advance bs.length).buf.size := by
  have := congrArg List.length h
  simp [Cursor.unread] at this
  simp
  omega

theorem next_reads : Reads Cursor.next (fun b => [b]) (fun _ => True) where
  forward hwf _ h := Cursor.next_of_cons hwf h
  backward hwf h := ⟨trivial, Cursor.next_eq_got hwf h⟩
  raised _ _ h := by
    obtain ⟨rfl, rfl, hp⟩ := Cursor.next_eq_raised h
    exact ⟨rfl, rfl, hp⟩
  inside hpos hwf h := by
    obtain ⟨b, rest, -, hn⟩ | ⟨-, hn⟩ := Cursor.next_cases hwf hpos <;> rw [hn] at h <;> cases h

/-- A value given without reading. -/
theorem Reads.pure {α : Type} (a : α) {enc : α → List Byte} {ok : α → Prop} (henc : enc a = [])
    (hok : ∀ x, ok x ↔ x = a) : Reads (fun c => .got a c) enc ok where
  forward := by
    intro c x rest _ hx _
    rw [(hok x).1 hx, henc]
    rfl
  backward := by
    intro c c' x _ h
    cases h
    exact ⟨(hok a).2 rfl, by rw [henc]; rfl, by rw [henc]; rfl⟩
  raised := by intro c c' e _ _ h; cases h
  inside := by intro c _ _ h; cases h

/-- One reader after another, the second chosen by the first's value `a`. The bytes of a result `x` are
those of `a`, then those the second reader takes for `x`. -/
theorem Reads.bind {α β : Type} {f : Cursor → Read α} {g : α → Cursor → Read β} {encA : α → List Byte}
    {encB : α → β → List Byte} {enc : β → List Byte} {okA : α → Prop} {okB : α → β → Prop} {ok : β → Prop}
    (hf : Reads f encA okA) (hg : ∀ a, okA a → Reads (g a) (encB a) (okB a))
    (sound : ∀ a x, okA a → okB a x → ok x ∧ enc x = encA a ++ encB a x)
    (complete : ∀ x, ok x → ∃ a, okA a ∧ okB a x) :
    Reads (fun c => (f c).andThen g) enc ok where
  forward := by
    intro c x rest hwf hx h
    obtain ⟨a, ha, hb⟩ := complete x hx
    obtain ⟨-, he⟩ := sound a x ha hb
    rw [he, List.append_assoc] at h
    have h1 := hf.forward hwf ha h
    have h2 := (hg a ha).forward (c := c.advance (encA a).length) hwf hb (Cursor.unread_advance h)
    simp [h1, h2, he, Nat.add_assoc]
  backward := by
    intro c c' x hwf h
    obtain ⟨a, c1, h1, h⟩ := Read.andThen_eq_got.1 h
    obtain ⟨ha, rfl, hu⟩ := hf.backward hwf h1
    obtain ⟨hb, rfl, hv⟩ := (hg a ha).backward (c := c.advance (encA a).length) hwf h
    obtain ⟨hx, he⟩ := sound a x ha hb
    refine ⟨hx, by simp [he, Nat.add_assoc], ?_⟩
    rw [he, List.append_assoc, ← hv, ← hu]
  raised := by
    intro c c' e hpos hwf h
    obtain h | ⟨a, c1, h1, h⟩ := Read.andThen_eq_raised.1 h
    · exact hf.raised hpos hwf h
    · obtain ⟨ha, rfl, hu⟩ := hf.backward hwf h1
      exact (hg a ha).raised (c := c.advance (encA a).length) (Cursor.advance_inside hpos hu) hwf h
  inside := by
    intro c hpos hwf h
    obtain h | ⟨a, c1, h1, h⟩ := Read.andThen_eq_outside.1 h
    · exact hf.inside hpos hwf h
    · obtain ⟨ha, rfl, hu⟩ := hf.backward hwf h1
      exact (hg a ha).inside (c := c.advance (encA a).length) (Cursor.advance_inside hpos hu) hwf h

/-- A reader whose value is only renamed. -/
theorem Reads.map {α β : Type} {f : Cursor → Read α} {k : α → β} {encA : α → List Byte}
    {enc : β → List Byte} {okA : α → Prop} {ok : β → Prop} (hf : Reads f encA okA)
    (henc : ∀ a, okA a → enc (k a) = encA a) (hok : ∀ x, ok x ↔ ∃ a, x = k a ∧ okA a) :
    Reads (fun c => (f c).andThen fun a c => .got (k a) c) enc ok :=
  hf.bind (okB := fun a x => x = k a) (encB := fun _ _ => [])
    (fun a _ => Reads.pure (k a) rfl fun _ => Iff.rfl)
    (fun a x ha hx => ⟨(hok x).2 ⟨a, hx, ha⟩, by rw [hx, henc a ha, List.append_nil]⟩)
    (fun x hx => by obtain ⟨a, rfl, ha⟩ := (hok x).1 hx; exact ⟨a, ha, rfl⟩)

/-- `Next16()` takes two bytes, the low one first (R34). -/
theorem next16_reads : Reads next16 encodeHalf (fun _ => True) :=
  next_reads.bind (okB := fun lo h => h.extractLsb' 0 8 = lo) (encB := fun _ h => [h.extractLsb' 8 8])
    (fun lo _ => next_reads.map (k := le16 lo)
      (fun hi _ => (List.cons.inj (encodeHalf_le16 lo hi)).2)
      (fun h => ⟨fun hlo => ⟨h.extractLsb' 8 8, by rw [← hlo, le16_halves], trivial⟩,
        fun ⟨hi, he, _⟩ => by rw [he]; exact (List.cons.inj (encodeHalf_le16 lo hi)).1⟩))
    (fun lo h _ hlo => ⟨trivial, by rw [← hlo]; rfl⟩)
    (fun h _ => ⟨_, trivial, rfl⟩)

/-- The immediate of a width takes one byte or two (R62). -/
theorem nextImm_reads (w : Width) : Reads (nextImm w) Imm.encode (fun v => v.width = w) := by
  cases w with
  | byte =>
    exact next_reads.map (k := Imm.byte) (fun _ _ => rfl) (fun v => by cases v <;> simp [Imm.width])
  | word =>
    exact next16_reads.map (k := Imm.word) (fun _ _ => rfl) (fun v => by cases v <;> simp [Imm.width])

/-- `DecodeRM(mod, rm, w)` gives the operands with these fields that are encodable under `w`, and takes
their displacement or address bytes (R56). -/
theorem decodeRM_reads (mod : BitVec 2) (rm : BitVec 3) (w : Width) :
    Reads (decodeRM mod rm w) RmOperand.tail (fun m => m.mod = mod ∧ m.rm = rm ∧ m.wf w = true) := by
  have hmod : mod = 0b11#2 ∨ mod = 0b00#2 ∨ mod = 0b01#2 ∨ mod = 0b10#2 := by revert mod; decide
  obtain rfl | rfl | rfl | rfl := hmod
  · obtain ⟨r, hr⟩ := regName_total rm w
    obtain ⟨hw, hc⟩ := regName_eq_ok hr
    have : decodeRM 0b11#2 rm w = fun c => .got (.register r) c := by funext c; simp [decodeRM, hr]
    rw [this]
    refine Reads.pure _ rfl fun x => ?_
    constructor
    · rintro ⟨hm, hx, hwf⟩
      cases x with
      | register r' =>
        have : regName r'.code r'.width = .ok r' := regName_code r'
        simp only [RmOperand.rm] at hx
        simp only [RmOperand.wf, beq_iff_eq] at hwf
        rw [hx, hwf, hr] at this
        cases this
        rfl
      | _ => simp [RmOperand.mod] at hm
    · rintro rfl
      exact ⟨rfl, hc, by simp [RmOperand.wf, hw]⟩
  · by_cases h6 : rm = 0b110#3
    · subst h6
      refine next16_reads.map (k := RmOperand.direct) (fun _ _ => rfl) fun x => ?_
      cases x <;> simp [RmOperand.mod, RmOperand.rm, RmOperand.wf, Base.code_eq_bp]
    · have : decodeRM 0b00#2 rm w = fun c => .got (.based (baseExpr rm)) c := by
        funext c; simp [decodeRM, h6]
      rw [this]
      refine Reads.pure _ rfl fun x => ?_
      constructor
      · rintro ⟨hm, rfl, -⟩
        cases x <;> simp_all [RmOperand.mod, RmOperand.rm]
      · rintro rfl
        refine ⟨rfl, code_baseExpr rm, ?_⟩
        have : baseExpr rm ≠ .bp := fun h => h6 (by rw [← code_baseExpr rm, h]; rfl)
        simpa [RmOperand.wf] using this
  · refine next_reads.map (k := RmOperand.based8 (baseExpr rm)) (fun _ _ => rfl) fun x => ?_
    constructor
    · rintro ⟨hm, rfl, -⟩
      cases x <;> simp_all [RmOperand.mod, RmOperand.rm]
    · rintro ⟨d, rfl, -⟩
      exact ⟨rfl, code_baseExpr rm, rfl⟩
  · refine next16_reads.map (k := RmOperand.based16 (baseExpr rm)) (fun _ _ => rfl) fun x => ?_
    constructor
    · rintro ⟨hm, rfl, -⟩
      cases x <;> simp_all [RmOperand.mod, RmOperand.rm]
    · rintro ⟨d, rfl, -⟩
      exact ⟨rfl, code_baseExpr rm, rfl⟩

end Sys2Proof
end

