-- ==== Sys2Proof/Laws/State.lean ====
section
/-! SUPPORT. What each update of the state leaves in each field, so that no proof unfolds an update. -/

namespace Sys2Proof.Machine

variable (s : State)

@[simp] theorem State.withPos_buf (p : Nat) : (s.withPos p).buf = s.buf := rfl
@[simp] theorem State.withPos_pos (p : Nat) : (s.withPos p).pos = p := rfl
@[simp] theorem State.withPos_status (p : Nat) : (s.withPos p).status = s.status := rfl
@[simp] theorem State.withPos_lines (p : Nat) : (s.withPos p).lines = s.lines := rfl
@[simp] theorem State.withPos_err (p : Nat) : (s.withPos p).err = s.err := rfl

@[simp] theorem State.emit_buf (r : Record) : (s.emit r).buf = s.buf := rfl
@[simp] theorem State.emit_pos (r : Record) : (s.emit r).pos = s.pos := rfl
@[simp] theorem State.emit_status (r : Record) : (s.emit r).status = s.status := rfl
@[simp] theorem State.emit_lines (r : Record) : (s.emit r).lines = s.lines ++ [renderLine r] := rfl
@[simp] theorem State.emit_err (r : Record) : (s.emit r).err = s.err := rfl

@[simp] theorem State.raiseError_buf (e : DecodeError) : (s.raiseError e).buf = s.buf := rfl
@[simp] theorem State.raiseError_pos (e : DecodeError) : (s.raiseError e).pos = s.pos := rfl
@[simp] theorem State.raiseError_status (e : DecodeError) : (s.raiseError e).status = .failed := rfl
@[simp] theorem State.raiseError_lines (e : DecodeError) : (s.raiseError e).lines = s.lines := rfl
@[simp] theorem State.raiseError_err (e : DecodeError) : (s.raiseError e).err = some e := rfl

@[simp] theorem State.finish_buf : (s.finish).buf = s.buf := rfl
@[simp] theorem State.finish_pos : (s.finish).pos = s.pos := rfl
@[simp] theorem State.finish_status : (s.finish).status = .done := rfl
@[simp] theorem State.finish_lines : (s.finish).lines = s.lines := rfl
@[simp] theorem State.finish_err : (s.finish).err = s.err := rfl

@[simp] theorem State.assertReset_buf : (s.assertReset).buf = s.buf := rfl
@[simp] theorem State.assertReset_pos : (s.assertReset).pos = 0 := rfl
@[simp] theorem State.assertReset_status : (s.assertReset).status = .running := rfl
@[simp] theorem State.assertReset_lines : (s.assertReset).lines = [] := rfl
@[simp] theorem State.assertReset_err : (s.assertReset).err = none := rfl

@[simp] theorem State.placeBytes_buf (bs : List Byte) : (s.placeBytes bs).buf = s.buf.overlay s.pos bs := rfl
@[simp] theorem State.placeBytes_pos (bs : List Byte) : (s.placeBytes bs).pos = s.pos := rfl
@[simp] theorem State.placeBytes_status (bs : List Byte) : (s.placeBytes bs).status = .running := rfl
@[simp] theorem State.placeBytes_lines (bs : List Byte) : (s.placeBytes bs).lines = s.lines := rfl
@[simp] theorem State.placeBytes_err (bs : List Byte) : (s.placeBytes bs).err = none := rfl

@[simp] theorem State.load_buf (bs : List Byte) : (State.load bs).buf = Memory.ofBytes bs := rfl
@[simp] theorem State.load_pos (bs : List Byte) : (State.load bs).pos = 0 := rfl
@[simp] theorem State.load_status (bs : List Byte) : (State.load bs).status = .running := rfl
@[simp] theorem State.load_lines (bs : List Byte) : (State.load bs).lines = [] := rfl
@[simp] theorem State.load_err (bs : List Byte) : (State.load bs).err = none := rfl

@[simp] theorem State.cursor_buf : s.cursor.buf = s.buf := rfl
@[simp] theorem State.cursor_pos : s.cursor.pos = s.pos := rfl

/-- A state is its five fields. -/
theorem State.ext_fields {s t : State} (hb : s.buf = t.buf) (hp : s.pos = t.pos) (hs : s.status = t.status)
    (hl : s.lines = t.lines) (he : s.err = t.err) : s = t := by
  cases s; cases t; simp_all

end Sys2Proof.Machine
end

