-- ==== Sys2Proof/Laws/Step.lean ====
section
/-! SUPPORT. What `exec` and `step` can answer, said once. -/

namespace Sys2Proof.Machine

/-- Every form's meaning emits its record's line, and that is all it does (R74, R75). -/
theorem exec_eq_emit (i : Instr) (s : State) : exec i s = .next (s.emit (instrRecord i)) := by
  cases i <;> rfl

/-- The three ways a step goes on (R74): the call ends, an error ends it, or an instruction was read and
its line emitted. Every one starts from `Running`. -/
theorem step_cases {s t : State} (h : step s = .next t) :
    s.status = .running ∧
      ((s.pos = s.buf.size ∧ t = s.finish) ∨
        (s.pos ≠ s.buf.size ∧ ∃ e c, s.fetch = .raised e c ∧ t = (s.withPos c.pos).raiseError e) ∨
        (s.pos ≠ s.buf.size ∧
          ∃ i c, s.fetch = .got i c ∧ t = (s.withPos c.pos).emit (instrRecord i))) := by
  unfold step at h
  split at h
  · cases h
  · cases h
  · rename_i hs
    refine ⟨hs, ?_⟩
    split at h
    · rename_i hend
      cases h
      exact .inl ⟨(Cursor.atEnd_iff _).1 hend, rfl⟩
    · rename_i hend
      have hne : s.pos ≠ s.buf.size := fun hp => hend ((Cursor.atEnd_iff _).2 hp)
      split at h
      · rename_i i c hf
        rw [exec_eq_emit] at h
        cases h
        exact .inr (.inr ⟨hne, i, c, hf, rfl⟩)
      · rename_i e c hf
        cases h
        exact .inr (.inl ⟨hne, e, c, hf, rfl⟩)
      · cases h

/-- A step stops only from a terminal state, or on a read outside the buffer. -/
theorem step_fault {s : State} {r : Fault} (h : step s = .fault r) :
    (r = .noStepFromDone ∧ s.status = .done) ∨ (r = .noStepFromFailed ∧ s.status = .failed) ∨
      (r = .readOutsideBuffer ∧ s.status = .running ∧ s.fetch = .outside) := by
  unfold step at h
  split at h
  · rename_i hs; cases h; exact .inl ⟨rfl, hs⟩
  · rename_i hs; cases h; exact .inr (.inl ⟨rfl, hs⟩)
  · rename_i hs
    split at h
    · cases h
    · split at h
      · rw [exec_eq_emit] at h; cases h
      · cases h
      · rename_i hf; cases h; exact .inr (.inr ⟨rfl, hs, hf⟩)

/-- No step is refused: all five forms have their meaning. -/
theorem step_not_refused (s : State) (r : Refusal) : step s ≠ .refused r := by
  intro h
  unfold step at h
  split at h
  · cases h
  · cases h
  · split at h
    · cases h
    · split at h
      · rw [exec_eq_emit] at h; cases h
      · cases h
      · cases h

/-- A step that reads an instruction runs it. -/
theorem step_of_fetch {s : State} {i : Instr} {c : Cursor} (hs : s.status = .running)
    (hp : s.pos ≠ s.buf.size) (h : s.fetch = .got i c) : step s = exec i (s.withPos c.pos) := by
  have : s.cursor.atEnd = false := by
    cases hb : s.cursor.atEnd with
    | false => rfl
    | true => exact absurd ((Cursor.atEnd_iff _).1 hb) hp
  simp [step, hs, this, h]

end Sys2Proof.Machine
end

