-- ==== Sys2Proof/Laws/Call.lean ====
section
/-! SUPPORT. The loop of a call, one step at a time. -/

namespace Sys2Proof.Machine

/-- A terminal state is the end of its call (R93). -/
theorem runCall_of_terminal {t : State} (h : t.status = .done ∨ t.status = .failed) (fuel : Nat) :
    runCall fuel t = .next t := by
  cases fuel with
  | zero => rfl
  | succ k => rcases h with h | h <;> simp [runCall, h]

/-- A step that goes on is one turn of the loop (R107). -/
theorem runCall_succ_of_step {s t : State} (h : step s = .next t) (fuel : Nat) :
    runCall (fuel + 1) s = runCall fuel t := by
  simp [runCall, (step_cases h).1, h]

end Sys2Proof.Machine
end

