-- ==== Sys2Proof/Laws/Operands.lean ====
section
/-! SUPPORT. Displacements and their rendering: the value of an `i16` is the two's complement reading of
its bits, and its term depends only on that value. -/

namespace Sys2Proof.Machine

theorem asI16_eq_toInt (h : Half) : asI16 h = h.toInt := by
  rw [asI16, BitVec.toInt_eq_msb_cond, BitVec.msb_eq_getLsbD_last]
  rfl

theorem asI8_eq_toInt (b : Byte) : asI8 b = b.toInt := by
  rw [asI8, BitVec.toInt_eq_msb_cond, BitVec.msb_eq_getLsbD_last]
  rfl

theorem displacementText_zero : displacementText 0 = "" := rfl

theorem displacementText_pos {k : Nat} (hk : 0 < k) : displacementText k = " + " ++ dec k := by
  have h1 : ¬(k : Int) = 0 := by omega
  have h2 : (0 : Int) < k := by omega
  simp only [displacementText, h1, h2, if_false, if_true, Int.natAbs_natCast]

theorem displacementText_neg {k : Nat} (hk : 0 < k) : displacementText (-(k : Int)) = " - " ++ dec k := by
  have h1 : ¬-(k : Int) = 0 := by omega
  have h2 : ¬(0 : Int) < -k := by omega
  simp only [displacementText, h1, h2, if_false, Int.natAbs_neg, Int.natAbs_natCast]

end Sys2Proof.Machine
end

