-- ==== Sys2Proof/Laws/PerInstr.lean ====
section
/-! SUPPORT. Per-instruction families over the syntax of `Instr`. -/

namespace Sys2Proof.Laws

theorem length_tail (m : RmOperand) : m.tail.length ≤ 2 := by
  cases m <;> simp [RmOperand.tail]

theorem length_imm (v : Imm) : 1 ≤ v.encode.length ∧ v.encode.length ≤ 2 := by
  cases v <;> simp [Imm.encode]

/-- An instruction is 2 to 6 bytes long (R46). -/
def EncodedLength.Statement (i : Instr) : Prop := 2 ≤ (encode i).length ∧ (encode i).length ≤ maxLength

theorem EncodedLength.movRImm (dst : Reg) (imm : Imm) : EncodedLength.Statement (.movRImm dst imm) := by
  have := length_imm imm
  simp [EncodedLength.Statement, encode, maxLength]
  omega

theorem EncodedLength.movRmR (dir : Direction) (reg : Reg) (rm : RmOperand) :
    EncodedLength.Statement (.movRmR dir reg rm) := by
  have := length_tail rm
  simp [EncodedLength.Statement, encode, maxLength]
  omega

theorem EncodedLength.movAddrAx (spare : BitVec 1) (addr : Half) :
    EncodedLength.Statement (.movAddrAx spare addr) := by
  simp [EncodedLength.Statement, encode, maxLength]

theorem EncodedLength.movAxAddr (spare : BitVec 1) (addr : Half) :
    EncodedLength.Statement (.movAxAddr spare addr) := by
  simp [EncodedLength.Statement, encode, maxLength]

theorem EncodedLength.movRmImm (spare : BitVec 3) (dst : RmOperand) (imm : Imm) :
    EncodedLength.Statement (.movRmImm spare dst imm) := by
  have h1 := length_tail dst
  have h2 := length_imm imm
  simp [EncodedLength.Statement, encode, maxLength]
  omega

end Sys2Proof.Laws
end

