-- ==== Sys2Proof/Tests/Slice0.lean ====
section
/-! SUPPORT. Tests: ill-formed terms refused, words written out from the format table (30_encoding.md
R46) and the worked examples of 95_test_vectors.md, whose expected results stand there; then, for each
statement with hypotheses, a concrete witness that meets them. -/

namespace Sys2Proof.Tests

open Sys2Proof.Machine

/-! ### WellFormed -/

theorem test_wf_refuses_imm_width_mismatch :
    (Instr.movRImm .al (.word 1)).wf = false ∧ (Instr.movRImm .ax (.byte 1)).wf = false := by decide
theorem test_wf_refuses_rm_register_of_other_width :
    (Instr.movRmR .regIsSource .ax (.register .bl)).wf = false := by decide
theorem test_wf_refuses_bp_without_displacement :
    (Instr.movRmR .regIsSource .ax (.based .bp)).wf = false ∧
      (Instr.movRmImm 0 (.based .bp) (.byte 1)).wf = false := by decide
theorem test_wf_refuses_word_register_in_irm :
    (Instr.movRmImm 0 (.register .ax) (.word 1)).wf = false := by decide
theorem test_wf_accepts :
    (Instr.movRImm .ah (.byte 1)).wf = true ∧ (Instr.movRmR .regIsSource .ax (.based8 .bp 0)).wf = true ∧
      (Instr.movAddrAx 0 1).wf = true ∧ (Instr.movAxAddr 1 1).wf = true ∧
      (Instr.movRmImm 7 (.register .al) (.word 1)).wf = true := by decide

/-! ### Decoding words written out from R46 -/

/-- The instruction at the start of a byte sequence, and where the cursor stands after it. -/
def decoded (bs : List Byte) : Option (Instr × Nat) :=
  match decode ⟨Memory.ofBytes bs, 0⟩ with
  | .got i c => some (i, c.pos)
  | .raised _ _ => none
  | .outside => none

theorem test_decode_ir_byte : decoded [0b1011_0_100, 0x80] = some (.movRImm .ah (.byte 128), 2) := by decide
theorem test_decode_ir_word :
    decoded [0b1011_1_111, 0x34, 0x12] = some (.movRImm .di (.word 4660), 3) := by decide
theorem test_decode_rm_disp16 :
    decoded [0b1000_10_0_1, 0b10_001_100, 0xD4, 0xFE] =
      some (.movRmR .regIsSource .cx (.based16 .si 0xFED4), 4) := by decide
theorem test_decode_rm_direct :
    decoded [0b1000_10_1_0, 0b00_011_110, 0x34, 0x12] =
      some (.movRmR .regIsDestination .bl (.direct 0x1234), 4) := by decide
theorem test_decode_am : decoded [0b1010_001_0, 0x05, 0x00] = some (.movAddrAx 0 5, 3) := by decide
theorem test_decode_ma : decoded [0b1010_000_0, 0x10, 0x00] = some (.movAxAddr 0 16, 3) := by decide
theorem test_decode_irm_reg_field_ignored :
    decoded [0b1100_011_0, 0b01_111_110, 0x08, 0x09] = some (.movRmImm 7 (.based8 .bp 8) (.byte 9), 4) := by
  decide
theorem test_decode_irm_longest :
    decoded [0b1100_011_1, 0b00_000_110, 0xFF, 0xFF, 0x00, 0x80] =
      some (.movRmImm 0 (.direct 65535) (.word 32768), 6) := by decide
theorem test_table_words :
    decodeTableWord 8 0xB0 = some (.movRImm .al (.byte 0)) ∧
      decodeTableWord 8 0x88 = some (.movRmR .regIsSource .al (.based .bxSi)) ∧
      decodeTableWord 8 0xA2 = some (.movAddrAx 0 0) ∧ decodeTableWord 8 0xA0 = some (.movAxAddr 0 0) ∧
      decodeTableWord 8 0xC6 = some (.movRmImm 0 (.based .bxSi) (.byte 0)) ∧
      decodeTableWord 8 0xFF = none := by decide

/-! ### One step: the vectors of 95_test_vectors.md -/

/-- What one step over a byte sequence leaves: the position, the lines, the error. -/
def stepped (bs : List Byte) : Option (Nat × List String × Option DecodeError) :=
  match step (State.load bs) with
  | .next t => some (t.pos, t.lines, t.err)
  | .fault _ => none
  | .refused _ => none

theorem test_step_S2 : stepped [0xB8, 0x01, 0x00] = some (3, ["mov ax, 1\n"], none) := by decide
theorem test_step_ir_imm_is_unsigned : stepped [0xB1, 0xFF] = some (2, ["mov cl, 255\n"], none) := by decide
theorem test_step_S1 : stepped [0x89, 0xD9] = some (2, ["mov cx, bx\n"], none) := by decide
theorem test_step_rm_most_negative_displacement :
    stepped [0x8B, 0x87, 0x00, 0x80] = some (4, ["mov ax, [bx - 32768]\n"], none) := by decide
theorem test_step_am_bit0_ignored : stepped [0xA2, 0x05, 0x00] = some (3, ["mov [5], ax\n"], none) := by decide
theorem test_step_am_last_address :
    stepped [0xA3, 0xFF, 0xFF] = some (3, ["mov [65535], ax\n"], none) := by decide
theorem test_step_S4 : stepped [0xA1, 0x00, 0x01] = some (3, ["mov ax, [256]\n"], none) := by decide
theorem test_step_ma_bit0_ignored : stepped [0xA0, 0x10, 0x00] = some (3, ["mov ax, [16]\n"], none) := by decide
theorem test_step_irm_immediate_after_displacement :
    stepped [0xC7, 0x85, 0x85, 0x03, 0x5B, 0x01] = some (6, ["mov [di + 901], word 347\n"], none) := by decide
theorem test_step_irm_register_width_forced :
    stepped [0xC7, 0xC0, 0x01, 0x00] = some (4, ["mov al, word 1\n"], none) := by decide

/-- The line of the instruction placed in the reset state by a word, and the position after it. -/
def placed (nbits w : Nat) : Option (Nat × List String) :=
  match step (State.reset.withFetchWord nbits w) with
  | .next t => some (t.pos, t.lines)
  | .fault _ => none
  | .refused _ => none

theorem test_placed_words_run_first :
    placed 8 0xB0 = some (2, ["mov al, 0\n"]) ∧ placed 8 0x88 = some (2, ["mov [bx + si], al\n"]) ∧
      placed 8 0xA2 = some (3, ["mov [0], ax\n"]) ∧ placed 8 0xA0 = some (3, ["mov ax, [0]\n"]) ∧
      placed 8 0xC6 = some (3, ["mov [bx + si], byte 0\n"]) := by decide

/-- The result of the one step at `pos` of a buffer. -/
def resultAt (bs : List Byte) (pos : Nat) : Option CallResult :=
  match step ((State.load bs).withPos pos) with
  | .next t => t.result
  | .fault _ => none
  | .refused _ => none

theorem test_error_S6 : resultAt [0xFF] 0 = some (.err (.unsupportedOpcode 0xFF)) := by decide
theorem test_error_P4_truncated : resultAt [0x89, 0xD9, 0xB8, 0x01] 2 = some (.err .truncatedInput) := by decide
theorem test_error_P5_segment_register :
    resultAt [0x89, 0xD9, 0x8C, 0xD8, 0xB8, 0x01, 0x00] 2 = some (.err (.unsupportedOpcode 0x8C)) := by decide
theorem test_done_at_end : resultAt [0x89, 0xD9] 2 = some (.ok "bits 16\n\n") := by decide

/-! ### Witnesses: for each statement with hypotheses, values that meet them all -/

theorem witness_StartSuppliesBufferWithinBound :
    (∀ m, some 2 = some m → [0x89#8, 0xD9#8].length ≤ m) ∧ 1 < [0x89#8, 0xD9#8].length := by
  refine ⟨fun m h => ?_, by decide⟩
  cases h
  decide

/-- A failed state with a given error. -/
def failedWith (e : DecodeError) : State := (State.load [0xFF]).raiseError e

theorem witness_ErrorRegisterValues :
    (State.load []).err = none ∧ (failedWith .truncatedInput).err = some .truncatedInput ∧
      (failedWith (.unsupportedOpcode 0xFF)).err = some (.unsupportedOpcode 0xFF) ∧
      (failedWith (.unsupportedAddressingMode 3)).err = some (.unsupportedAddressingMode 3) ∧
      (failedWith .invalidEncoding).err = some .invalidEncoding := by decide

theorem witness_ResultIsAFunctionOfTheFinalState :
    (State.load []).status = .running ∧ (State.load []).finish.status = .done ∧
      (failedWith .truncatedInput).status = .failed ∧
      (failedWith .truncatedInput).err = some .truncatedInput ∧
      ((failedWith .truncatedInput).withPos 1).status = .failed ∧
      (failedWith .truncatedInput).err = ((failedWith .truncatedInput).withPos 1).err := by decide

/-- The cursor at the start of a byte sequence. -/
def cursorAt (bs : List Byte) : Cursor := ⟨Memory.ofBytes bs, 0⟩

theorem witness_CursorReadsOneByte :
    (cursorAt [0x89]).buf.wf = true ∧ (cursorAt [0x89]).buf.bytes[(cursorAt [0x89]).pos]? = some 0x89#8 ∧
      (cursorAt []).buf.wf = true ∧ (cursorAt []).pos = (cursorAt []).buf.size := by decide

theorem witness_SixteenBitReadsAreLittleEndian :
    (cursorAt [0x00, 0xFF]).buf.wf = true ∧ [0x00#8, 0xFF#8] <+: (cursorAt [0x00, 0xFF]).unread := by decide

theorem witness_ClassifierOrderChangesNoResult : classifierTable.reverse.Perm classifierTable :=
  List.reverse_perm _

theorem witness_DecodeOfEncodeGivesTheInstruction :
    (cursorAt [0x8B, 0x41, 0x05, 0xFF]).buf.wf = true ∧
      (Instr.movRmR .regIsDestination .ax (.based8 .bxDi 5)).wf = true ∧
      encode (.movRmR .regIsDestination .ax (.based8 .bxDi 5)) <+: (cursorAt [0x8B, 0x41, 0x05, 0xFF]).unread := by
  decide

/-- For DecodedBytesAreTheEncoding, LengthFixedByFirstTwoBytes and DecodingReadsOnlyTheInstructionsBytes. -/
theorem witness_decode_gives_an_instruction :
    (cursorAt [0xC6, 0xC3, 0x05]).buf.wf = true ∧
      decode (cursorAt [0xC6, 0xC3, 0x05]) =
        .got (.movRmImm 0 (.register .bl) (.byte 5)) ⟨Memory.ofBytes [0xC6, 0xC3, 0x05], 3⟩ := by decide

theorem witness_DecodingReadsOnlyTheInstructionsBytes :
    decode ⟨Memory.ofBytes ([0xFF] ++ [0xB0, 0x2A] ++ [0x00]), [0xFF#8].length⟩ =
        .got (.movRImm .al (.byte 0x2A)) ⟨Memory.ofBytes [0xFF, 0xB0, 0x2A, 0x00], 3⟩ ∧
      3 = [0xFF#8].length + [0xB0#8, 0x2A#8].length := by decide

theorem witness_DefensiveErrorsAreUnreachable :
    decode (cursorAt [0xB0]) = .raised .truncatedInput ⟨Memory.ofBytes [0xB0], 1⟩ := by decide

theorem witness_CursorMovesForwardInsideTheBuffer :
    (cursorAt []).buf.wf = true ∧ (cursorAt []).pos ≤ (cursorAt []).buf.size := by decide

theorem witness_AddressingModes :
    (cursorAt [0x00, 0x80]).buf.wf = true ∧ (cursorAt [0x00, 0x80]).pos ≤ (cursorAt [0x00, 0x80]).buf.size ∧
      [0x00#8, 0x80#8] <+: (cursorAt [0x00, 0x80]).unread ∧ [0x00#8] <+: (cursorAt [0x00, 0x80]).unread ∧
      (0b110#3 = 0b110#3) ∧ (0b111#3 ≠ 0b110#3) ∧ (cursorAt [0x00]).buf.wf = true ∧
      (cursorAt [0x00]).pos ≤ (cursorAt [0x00]).buf.size ∧
      (cursorAt [0x00]).unread.length < dispLength 0b10 0b000 := by decide

theorem witness_DecimalSpelling : (dec 0).toList.head? = some '0' := by decide

theorem witness_OperandRendering :
    (0#16).toInt = 0 ∧ 0 < 32767 ∧ (0x7FFF#16).toInt = ((32767 : Nat) : Int) ∧ 0 < 32768 ∧
      (0x8000#16).toInt = -((32768 : Nat) : Int) := by decide

theorem witness_FormsChangeOnlyTheLines :
    exec (.movAddrAx 1 15) (State.load []) =
      .next { State.load [] with lines := ["mov [15], ax\n"] } := by rfl

theorem witness_IgnoredBitsChangeNothing :
    (State.load [0xA2, 0x05, 0x00]).Ready ∧
      encode (.movAddrAx 0 5) <+: (State.load [0xA2, 0x05, 0x00]).unread ∧
      State.load [0xA3, 0x05, 0x00] =
        { State.load [0xA2, 0x05, 0x00] with buf := (State.load [0xA3, 0x05, 0x00]).buf } ∧
      (State.load [0xA3, 0x05, 0x00]).buf.wf = true ∧
      encode (.movAddrAx 1 5) <+: (State.load [0xA3, 0x05, 0x00]).unread := by decide

theorem witness_IgnoredBitsChangeNothing_ma :
    (State.load [0xA0, 0x05, 0x00]).Ready ∧
      encode (.movAxAddr 0 5) <+: (State.load [0xA0, 0x05, 0x00]).unread ∧
      State.load [0xA1, 0x05, 0x00] =
        { State.load [0xA0, 0x05, 0x00] with buf := (State.load [0xA1, 0x05, 0x00]).buf } ∧
      (State.load [0xA1, 0x05, 0x00]).buf.wf = true ∧
      encode (.movAxAddr 1 5) <+: (State.load [0xA1, 0x05, 0x00]).unread := by decide

theorem witness_IgnoredBitsChangeNothing_irm :
    (State.load [0xC6, 0x07, 0x05]).Ready ∧ (RmOperand.based .bx).wf .byte = true ∧
      encode (.movRmImm 0 (.based .bx) (.byte 5)) <+: (State.load [0xC6, 0x07, 0x05]).unread ∧
      State.load [0xC6, 0x3F, 0x05] =
        { State.load [0xC6, 0x07, 0x05] with buf := (State.load [0xC6, 0x3F, 0x05]).buf } ∧
      (State.load [0xC6, 0x3F, 0x05]).buf.wf = true ∧
      encode (.movRmImm 7 (.based .bx) (.byte 5)) <+: (State.load [0xC6, 0x3F, 0x05]).unread := by decide

theorem witness_StepRunsTheDecodedInstruction :
    (State.load [0x89, 0xC0]).Ready ∧ (Instr.movRmR .regIsSource .ax (.register .ax)).wf = true ∧
      encode (.movRmR .regIsSource .ax (.register .ax)) <+: (State.load [0x89, 0xC0]).unread := by decide

theorem witness_StepOverImmediateToRegister :
    (State.load [0xB7, 0xFF]).Ready ∧ [(0b1011_0#5 ++ 7#3 : Byte), 0xFF] <+: (State.load [0xB7, 0xFF]).unread ∧
      (State.load [0xBF, 0xFF, 0xFF]).Ready ∧
      [(0b1011_1#5 ++ 7#3 : Byte), 0xFF, 0xFF] <+: (State.load [0xBF, 0xFF, 0xFF]).unread := by decide

theorem witness_StepOverImmediateToRegister_truncated :
    (State.load [0xB8, 0x01]).Ready ∧
      (State.load [0xB8, 0x01]).unread = (0b1011#4 ++ 1#1 ++ 0#3 : Byte) :: [0x01#8] ∧
      [0x01#8].length < (if (1#1 : BitVec 1) = 0 then 1 else 2) := by decide

theorem witness_StepOverRegisterOrMemoryMove_truncated :
    (State.load [0x89]).Ready ∧ (State.load [0x89]).unread = [(0b100010#6 ++ 0#1 ++ 1#1 : Byte)] ∧
      (State.load [0x8B, 0x06, 0x00]).Ready ∧
      (State.load [0x8B, 0x06, 0x00]).unread =
        [(0b100010#6 ++ 1#1 ++ 1#1 : Byte), (0b00#2 ++ 0b000#3 ++ 0b110#3 : Byte)] ++ [0x00] ∧
      [0x00#8].length < dispLength 0b00 0b110 := by decide

theorem witness_StepOverAccumulatorForms_truncated :
    (State.load [0xA3]).Ready ∧ (State.load [0xA3]).unread = (0b1010001#7 ++ 1#1 : Byte) :: ([] : List Byte) ∧
      (State.load [0xA1, 0x00]).Ready ∧
      (State.load [0xA1, 0x00]).unread = (0b1010000#7 ++ 1#1 : Byte) :: [0x00#8] ∧
      ([] : List Byte).length < 2 ∧ [0x00#8].length < 2 := by decide

theorem witness_StepOverImmediateToRegisterOrMemory_truncated :
    (State.load [0xC6]).Ready ∧ (State.load [0xC6]).unread = [(0b1100011#7 ++ 0#1 : Byte)] ∧
      (State.load [0xC7, 0x46, 0x80, 0x01]).Ready ∧
      (State.load [0xC7, 0x46, 0x80, 0x01]).unread =
        [(0b1100011#7 ++ 1#1 : Byte), (0b01#2 ++ 0b000#3 ++ 0b110#3 : Byte)] ++ [0x80, 0x01] ∧
      [0x80#8, 0x01#8].length < dispLength 0b01 0b110 + (if (1#1 : BitVec 1) = 0 then 1 else 2) := by decide

theorem witness_StepOverRegisterOrMemoryMove :
    (State.load [0x8B, 0x06, 0x00, 0x00]).Ready ∧ [0x00#8, 0x00#8].length = dispLength 0b00 0b110 ∧
      ([(0b100010#6 ++ 1#1 ++ 1#1 : Byte), (0b00#2 ++ 0b000#3 ++ 0b110#3 : Byte)] ++ [0x00, 0x00]) <+:
        (State.load [0x8B, 0x06, 0x00, 0x00]).unread := by decide

theorem witness_StepOverAccumulatorForms :
    (State.load [0xA3, 0xFF, 0xFF]).Ready ∧
      [(0b1010001#7 ++ 1#1 : Byte), 0xFF, 0xFF] <+: (State.load [0xA3, 0xFF, 0xFF]).unread ∧
      (State.load [0xA0, 0x00, 0x00]).Ready ∧
      [(0b1010000#7 ++ 0#1 : Byte), 0x00, 0x00] <+: (State.load [0xA0, 0x00, 0x00]).unread := by decide

theorem witness_StepOverImmediateToRegisterOrMemory :
    (State.load [0xC6, 0x46, 0x80, 0xFF]).Ready ∧ [0x80#8].length = dispLength 0b01 0b110 ∧
      ([0b11000110#8, (0b01#2 ++ 0b000#3 ++ 0b110#3 : Byte)] ++ [0x80] ++ [0xFF]) <+:
        (State.load [0xC6, 0x46, 0x80, 0xFF]).unread ∧
      (State.load [0xC7, 0x46, 0x80, 0xFF, 0xFF]).Ready ∧
      ([0b11000111#8, (0b01#2 ++ 0b000#3 ++ 0b110#3 : Byte)] ++ [0x80] ++ [0xFF, 0xFF]) <+:
        (State.load [0xC7, 0x46, 0x80, 0xFF, 0xFF]).unread := by decide

theorem witness_ImmediateFormForcesByteRegister :
    (State.load [0xC7, 0xC7, 0x01, 0x00]).Ready ∧
      [0xC7#8, (0b11#2 ++ 0b000#3 ++ 0b111#3 : Byte), 0x01, 0x00] <+:
        (State.load [0xC7, 0xC7, 0x01, 0x00]).unread := by decide

theorem witness_StepAtEndOfBufferIsDone :
    ((State.load [0x89, 0xD9]).withPos 2).status = .running ∧
      ((State.load [0x89, 0xD9]).withPos 2).pos = ((State.load [0x89, 0xD9]).withPos 2).buf.size := by decide

theorem witness_UnsupportedFirstByteFailsTheCall :
    (State.load [0x8C]).Ready ∧ (State.load [0x8C]).unread = 0x8C#8 :: [] ∧
      ¬(0x88#8 ≤ 0x8C#8 ∧ 0x8C#8 ≤ 0x8B#8) ∧ ¬(0xA0#8 ≤ 0x8C#8 ∧ 0x8C#8 ≤ 0xA3#8) ∧
      ¬(0xB0#8 ≤ 0x8C#8 ∧ 0x8C#8 ≤ 0xBF#8) ∧ ¬(0xC6#8 ≤ 0x8C#8 ∧ 0x8C#8 ≤ 0xC7#8) := by decide

theorem witness_TruncatedInstructionFailsTheCall :
    (State.load [0xC7, 0x06, 0x00, 0x00, 0x07]).Ready ∧
      (Instr.movRmImm 0 (.direct 0) (.word 7)).wf = true ∧
      (State.load [0xC7, 0x06, 0x00, 0x00, 0x07]).unread ≠ [] ∧
      (State.load [0xC7, 0x06, 0x00, 0x00, 0x07]).unread <+: encode (.movRmImm 0 (.direct 0) (.word 7)) ∧
      (State.load [0xC7, 0x06, 0x00, 0x00, 0x07]).unread ≠ encode (.movRmImm 0 (.direct 0) (.word 7)) := by
  decide

/-- For the second half of TruncatedInstructionFailsTheCall, and for AnyErrorEndsTheCall. -/
theorem witness_step_raises :
    (State.load [0xB0]).Ready ∧ (State.load [0xB0]).pos ≠ (State.load [0xB0]).buf.size ∧
      decode ⟨(State.load [0xB0]).buf, (State.load [0xB0]).pos⟩ =
        .raised .truncatedInput ⟨Memory.ofBytes [0xB0], 1⟩ ∧
      step (State.load [0xB0]) = .next (((State.load [0xB0]).withPos 1).raiseError .truncatedInput) := by
  refine ⟨by decide, by decide, by decide, rfl⟩

theorem witness_TerminalStatesHaveNoStep :
    (State.load []).finish.status = .done ∧ (failedWith .truncatedInput).status = .failed := by decide

theorem witness_EveryReadyStepGoesOn : (State.load []).Ready ∧ (State.load [0xFF]).Ready := by decide

/-- For StepFrame and RunningStepConsumesTwoToSixBytes. -/
theorem witness_step_stays_running :
    (State.load [0xB0, 0x00]).buf.wf = true ∧
      step (State.load [0xB0, 0x00]) =
        .next { State.load [0xB0, 0x00] with pos := 2, lines := ["mov al, 0\n"] } ∧
      ({ State.load [0xB0, 0x00] with pos := 2, lines := ["mov al, 0\n"] } : State).status = .running := by
  refine ⟨by decide, rfl, rfl⟩

/-- For RunningStepConsumesTwoToSixBytes, the longest instruction. -/
theorem witness_step_over_six_bytes :
    step (State.load [0xC7, 0x06, 0xFF, 0xFF, 0x00, 0x80]) =
      .next { State.load [0xC7, 0x06, 0xFF, 0xFF, 0x00, 0x80] with
        pos := 6, lines := ["mov [65535], word 32768\n"] } := by rfl

theorem witness_PlacedWordIsTheNextInstruction :
    decodeTableWord 48 0x8000FFFF06C7 = some (.movRmImm 0 (.direct 0xFFFF) (.word 0x8000)) := by decide

/-- For StepKeepsTheInvariant and StepKeepsLinesMatchingBytes, with the step of
`witness_step_stays_running`. -/
theorem witness_invariants_hold :
    (State.load [0xB0, 0x00]).Inv ∧ (State.load [0xB0, 0x00]).LinesMatchBytes := by
  refine ⟨⟨by decide, fun _ => by decide, by decide, fun _ => rfl, by decide⟩, fun _ => ⟨[], by simp, rfl, rfl⟩⟩

theorem witness_CallIsDoneExactlyOnWholeInstructions :
    decodeCall [0xB0, 0x00] = some (.ok "bits 16\n\nmov al, 0\n") ∧
      ∀ i ∈ [Instr.movRImm .al (.byte 0)], i.wf = true := by decide

theorem witness_FirstErrorIsReported :
    (∀ i ∈ [Instr.movRmR .regIsSource .bx (.register .cx)], i.wf = true) ∧
      classify 0xFF = .error (.unsupportedOpcode 0xFF) ∧ (Instr.movRImm .ax (.word 1)).wf = true ∧ [0xB8#8, 0x01#8] ≠ [] ∧
      [0xB8#8, 0x01#8] <+: encode (.movRImm .ax (.word 1)) ∧
      [0xB8#8, 0x01#8] ≠ encode (.movRImm .ax (.word 1)) := by
  refine ⟨by decide, rfl, by decide⟩

theorem witness_JoinedBuffersJoinTheirLines :
    -- meets the hypothesis of OutputTextShape too
    decodeCall [0xB0, 0x00] = some (.ok ("bits 16\n\n" ++ "mov al, 0\n")) ∧
      decodeCall [] = some (.ok ("bits 16\n\n" ++ "")) := by decide

end Sys2Proof.Tests
end

/-! ### Reading an instruction: what `decode` gives, and what it can raise -/

namespace Sys2Proof

open Machine (Cursor Read reachableError)

/-! #### The fields of the first two bytes (R46, R47) -/

@[simp] theorem irW_append (w : BitVec 1) (code : BitVec 3) : irW (0b1011#4 ++ w ++ code) = w := by
  revert w code; decide

@[simp] theorem irReg_append (w : BitVec 1) (code : BitVec 3) :
    irReg (0b1011#4 ++ w ++ code) = code := by
  revert w code; decide

@[simp] theorem dField_append (d w : BitVec 1) : dField (0b100010#6 ++ d ++ w) = d := by
  revert d w; decide

@[simp] theorem wField_append (x : BitVec 7) (w : BitVec 1) : wField (x ++ w) = w := by
  revert x w; decide

/-- A second byte `mm ggg bbb` is exactly its three fields (R46, R47). -/
theorem modRegRm_eq_iff (m : RmOperand) (reg : BitVec 3) (b1 : Byte) :
    modRegRm m reg = b1 ↔ m.mod = modField b1 ∧ reg = regField b1 ∧ m.rm = rmField b1 := by
  have split : ∀ (mod : BitVec 2) (reg rm : BitVec 3), modField (mod ++ reg ++ rm) = mod ∧
      regField (mod ++ reg ++ rm) = reg ∧ rmField (mod ++ reg ++ rm) = rm := by decide
  have join : ∀ b1 : Byte, modField b1 ++ regField b1 ++ rmField b1 = b1 := by decide
  constructor
  · rintro rfl
    obtain ⟨hmod, hreg, hrm⟩ := split m.mod reg m.rm
    exact ⟨hmod.symm, hreg.symm, hrm.symm⟩
  · rintro ⟨hmod, rfl, hrm⟩
    rw [modRegRm, hmod, hrm, join]

/-- A classified first byte is its form's fixed bits and its fields (R46, R49). -/
theorem firstByte_eq_of_classify {b0 : Byte} {form : Form} (h : classify b0 = .ok form) :
    (match form with
      | .immediateToRegister => 0b1011#4 ++ irW b0 ++ irReg b0
      | .registerOrMemoryToFromRegister => 0b100010#6 ++ dField b0 ++ wField b0
      | .accumulatorToMemory => 0b1010001#7 ++ wField b0
      | .memoryToAccumulator => 0b1010000#7 ++ wField b0
      | .immediateToRegisterOrMemory => 0b1100011#7 ++ wField b0) = b0 := by
  revert b0
  cases form <;> decide

/-- The form whose mask/value pair accepts the first byte of an instruction (R46, R49). -/
def Instr.form : Instr → Form
  | .movRImm _ _ => .immediateToRegister
  | .movRmR _ _ _ => .registerOrMemoryToFromRegister
  | .movAddrAx _ _ => .accumulatorToMemory
  | .movAxAddr _ _ => .memoryToAccumulator
  | .movRmImm _ _ _ => .immediateToRegisterOrMemory

/-- The first byte of an encoding is classified as its instruction's form (R49). -/
theorem classify_of_prefix_encode {b0 : Byte} {i : Instr} (h : [b0] <+: encode i) :
    classify b0 = .ok i.form := by
  have ir : ∀ (w : BitVec 1) (code : BitVec 3),
    classify (0b1011#4 ++ w ++ code) = .ok .immediateToRegister := by decide
  have rm : ∀ d w : BitVec 1,
    classify (0b100010#6 ++ d ++ w) = .ok .registerOrMemoryToFromRegister := by decide
  have am : ∀ x : BitVec 1, classify (0b1010001#7 ++ x) = .ok .accumulatorToMemory := by decide
  have ma : ∀ x : BitVec 1, classify (0b1010000#7 ++ x) = .ok .memoryToAccumulator := by decide
  have irm : ∀ w : BitVec 1,
    classify (0b1100011#7 ++ w) = .ok .immediateToRegisterOrMemory := by decide
  cases i <;> obtain ⟨rfl, -⟩ := List.cons_prefix_cons.1 h
  · exact ir _ _
  · exact rm _ _
  · exact am _
  · exact ma _
  · exact irm _

/-- The instructions with a given first byte: those of its form, with its fields. -/
theorem prefix_encode_iff {b0 : Byte} {form : Form} (h : classify b0 = .ok form) (i : Instr) :
    [b0] <+: encode i ↔ match form with
      | .immediateToRegister =>
        ∃ r v, i = .movRImm r v ∧ v.width.bit = irW b0 ∧ r.code = irReg b0
      | .registerOrMemoryToFromRegister =>
        ∃ dir r m, i = .movRmR dir r m ∧ dir.bit = dField b0 ∧ r.width.bit = wField b0
      | .accumulatorToMemory => ∃ a, i = .movAddrAx (wField b0) a
      | .memoryToAccumulator => ∃ a, i = .movAxAddr (wField b0) a
      | .immediateToRegisterOrMemory => ∃ x m v, i = .movRmImm x m v ∧ v.width.bit = wField b0 := by
  constructor
  · intro hp
    obtain rfl : i.form = form := by simpa [h] using (classify_of_prefix_encode hp).symm
    -- the form is the instruction's own, and each field is read back from the byte that holds it
    cases i <;> obtain ⟨rfl, -⟩ := List.cons_prefix_cons.1 hp <;> simp [Instr.form]
  · have hb := firstByte_eq_of_classify h
    cases form with
    | immediateToRegister =>
      rintro ⟨r, v, rfl, hw, hc⟩
      simpa [encode, hw, hc] using hb.symm
    | registerOrMemoryToFromRegister =>
      rintro ⟨dir, r, m, rfl, hd, hw⟩
      simpa [encode, hd, hw] using hb.symm
    | accumulatorToMemory =>
      rintro ⟨a, rfl⟩
      simpa [encode] using hb.symm
    | memoryToAccumulator =>
      rintro ⟨a, rfl⟩
      simpa [encode] using hb.symm
    | immediateToRegisterOrMemory =>
      rintro ⟨x, m, v, rfl, hw⟩
      simpa [encode, hw] using hb.symm

/-! #### The five forms -/

/-- An instruction is 2 to 6 bytes long (R46). -/
theorem encodedLength (i : Instr) : Laws.EncodedLength.Statement i := by
  cases i with
  | movRImm dst imm => exact Laws.EncodedLength.movRImm dst imm
  | movRmR dir reg rm => exact Laws.EncodedLength.movRmR dir reg rm
  | movAddrAx spare addr => exact Laws.EncodedLength.movAddrAx spare addr
  | movAxAddr spare addr => exact Laws.EncodedLength.movAxAddr spare addr
  | movRmImm spare dst imm => exact Laws.EncodedLength.movRmImm spare dst imm

/-- `g` reads the instructions whose encoding begins with the bytes `pre`, from the position after these. -/
abbrev ReadsAfter (pre : List Byte) (g : Cursor → Read Instr) : Prop :=
  Reads g (fun i => (encode i).drop pre.length) (fun i => i.wf = true ∧ pre <+: encode i)

/-- Every encoding has a second byte, so the bytes after the first are read by reading the second one
and then the rest. -/
theorem ReadsAfter.next {b0 : Byte} {g : Byte → Cursor → Read Instr}
    (hg : ∀ b1, ReadsAfter [b0, b1] (g b1)) : ReadsAfter [b0] (fun c => c.next.andThen g) := by
  refine next_reads.bind (fun b1 _ => hg b1) ?_ ?_
  · rintro b1 i - ⟨hwf, rest, he⟩
    exact ⟨⟨hwf, b1 :: rest, he⟩, by simp [← he]⟩
  · rintro i ⟨hwf, rest, he⟩
    have hlen := (encodedLength i).1
    cases rest with
    | nil => simp [← he] at hlen
    | cons b1 rest => exact ⟨b1, trivial, hwf, rest, he⟩

/-- What `HandleIR` reads (R78). -/
theorem decodeIR_readsAfter {b0 : Byte} (h : classify b0 = .ok .immediateToRegister) :
    ReadsAfter [b0] (decodeIR b0) := by
  obtain ⟨r, hr⟩ := regName_total (irReg b0) (.ofBit (irW b0))
  obtain ⟨hw, hc⟩ := regName_eq_ok hr
  have hread : decodeIR b0 = fun c =>
      (nextImm (.ofBit (irW b0)) c).andThen fun v c => .got (.movRImm r v) c := by
    funext c; simp [decodeIR, hr]
  rw [hread]
  refine (nextImm_reads _).map (fun _ _ => rfl) fun i => ?_
  rw [prefix_encode_iff h]
  constructor
  · rintro ⟨hwf, r', v, rfl, hvw, hrc⟩
    simp only [Instr.wf, beq_iff_eq] at hwf
    obtain rfl : r' = r := by simpa [← hvw, ← hrc, ← hwf] using hr
    exact ⟨v, rfl, by simp [← hvw]⟩
  · rintro ⟨v, rfl, hv⟩
    exact ⟨by simp [Instr.wf, hw, hv], r, v, rfl, by simp [hv], hc⟩

/-- The first two bytes of an encoding, one at a time. -/
theorem prefix_pair_iff {b0 b1 x y : Byte} {rest : List Byte} :
    [b0, b1] <+: x :: y :: rest ↔ [b0] <+: x :: y :: rest ∧ y = b1 := by
  simp [eq_comm (a := b1)]

/-- What `HandleRM` reads (R79). -/
theorem decodeFormRM_readsAfter {b0 : Byte} (h : classify b0 = .ok .registerOrMemoryToFromRegister) :
    ReadsAfter [b0] (decodeFormRM b0) := by
  refine ReadsAfter.next fun b1 => ?_
  obtain ⟨r, hr⟩ := regName_total (regField b1) (.ofBit (wField b0))
  obtain ⟨hw, hc⟩ := regName_eq_ok hr
  simp only [hr, Read.ofExcept_ok, Read.andThen_got]
  refine (decodeRM_reads _ _ _).map (fun _ _ => rfl) fun i => ?_
  constructor
  · rintro ⟨hwf, hp⟩
    obtain ⟨dir, r', m, rfl, hd, hrw⟩ := (prefix_encode_iff h i).1 ((List.prefix_append _ [b1]).trans hp)
    obtain ⟨hmod, hreg, hrm⟩ := (modRegRm_eq_iff ..).1 (prefix_pair_iff.1 hp).2
    obtain rfl : r' = r := by simpa [← hrw, ← hreg] using hr
    exact ⟨m, by simp [← hd], hmod, hrm, by simpa [← hrw, Instr.wf] using hwf⟩
  · rintro ⟨m, rfl, hmod, hrm, hwf⟩
    have hb0 := (prefix_encode_iff h _).2 ⟨_, r, m, rfl, Direction.bit_ofBit _, by simp [hw]⟩
    exact ⟨by simpa [Instr.wf, hw] using hwf,
      prefix_pair_iff.2 ⟨hb0, (modRegRm_eq_iff ..).2 ⟨hmod, hc, hrm⟩⟩⟩

/-- What `HandleIRM` reads (R82). -/
theorem decodeIRM_readsAfter {b0 : Byte} (h : classify b0 = .ok .immediateToRegisterOrMemory) :
    ReadsAfter [b0] (decodeIRM b0) := by
  refine ReadsAfter.next fun b1 => ?_
  refine (decodeRM_reads _ _ _).bind
    (okB := fun m i => ∃ v, i = .movRmImm (regField b1) m v ∧ v.width = .ofBit (wField b0))
    (encB := fun m i => (encode i).drop (2 + m.tail.length))
    (fun m _ => (nextImm_reads _).map (fun v _ => by simp [encode, Nat.add_comm 2]) fun i => Iff.rfl) ?_ ?_
  · rintro m i ⟨hmod, hrm, hwf⟩ ⟨v, rfl, hv⟩
    have hb0 := (prefix_encode_iff h _).2 ⟨regField b1, m, v, rfl, by simp [hv]⟩
    exact ⟨⟨hwf, prefix_pair_iff.2 ⟨hb0, (modRegRm_eq_iff ..).2 ⟨hmod, rfl, hrm⟩⟩⟩,
      by simp [encode, Nat.add_comm 2]⟩
  · rintro i ⟨hwf, hp⟩
    obtain ⟨x, m, v, rfl, hv⟩ := (prefix_encode_iff h i).1 ((List.prefix_append _ [b1]).trans hp)
    obtain ⟨hmod, rfl, hrm⟩ := (modRegRm_eq_iff ..).1 (prefix_pair_iff.1 hp).2
    exact ⟨m, ⟨hmod, hrm, hwf⟩, v, rfl, by simp [← hv]⟩

/-- What `HandleAM` reads (R80). -/
theorem decodeAM_readsAfter {b0 : Byte} (h : classify b0 = .ok .accumulatorToMemory) :
    ReadsAfter [b0] (decodeAM b0) :=
  next16_reads.map (k := Instr.movAddrAx (wField b0)) (fun _ _ => rfl) fun i => by
    rw [prefix_encode_iff h]
    exact ⟨fun ⟨_, a, hi⟩ => ⟨a, hi, trivial⟩, fun ⟨a, hi, _⟩ => ⟨by rw [hi]; rfl, a, hi⟩⟩

/-- What `HandleMA` reads (R81). -/
theorem decodeMA_readsAfter {b0 : Byte} (h : classify b0 = .ok .memoryToAccumulator) :
    ReadsAfter [b0] (decodeMA b0) :=
  next16_reads.map (k := Instr.movAxAddr (wField b0)) (fun _ _ => rfl) fun i => by
    rw [prefix_encode_iff h]
    exact ⟨fun ⟨_, a, hi⟩ => ⟨a, hi, trivial⟩, fun ⟨a, hi, _⟩ => ⟨by rw [hi]; rfl, a, hi⟩⟩

/-- The reader of a form takes the instructions with its first byte (R75). -/
theorem decodeForm_readsAfter {b0 : Byte} {form : Form} (h : classify b0 = .ok form) :
    ReadsAfter [b0] (decodeForm form b0) := by
  cases form with
  | immediateToRegister => exact decodeIR_readsAfter h
  | registerOrMemoryToFromRegister => exact decodeFormRM_readsAfter h
  | accumulatorToMemory => exact decodeAM_readsAfter h
  | memoryToAccumulator => exact decodeMA_readsAfter h
  | immediateToRegisterOrMemory => exact decodeIRM_readsAfter h

/-! #### One instruction from the cursor -/

/-- The classifier's one error records the byte it refused (R88). -/
theorem classify_eq_error {b0 : Byte} {e : DecodeError} (h : classify b0 = .error e) :
    e = .unsupportedOpcode b0 := by
  unfold classify at h
  split at h <;> cases h
  rfl

/-- What `decode` gives is well-formed, and it took exactly that instruction's bytes (R16, R46). -/
theorem decode_eq_got {c c' : Cursor} {i : Instr} (hwf : c.buf.wf = true) (h : decode c = .got i c') :
    i.wf = true ∧ c' = c.advance (encode i).length ∧ c.unread = encode i ++ c'.unread := by
  obtain ⟨b0, c0, hb0, h⟩ := Read.andThen_eq_got.1 h
  obtain ⟨form, c1, hform, h⟩ := Read.andThen_eq_got.1 h
  obtain ⟨hclass, rfl⟩ := Read.ofExcept_eq_got.1 hform
  obtain ⟨rfl, hu⟩ := Cursor.next_eq_got hwf hb0
  obtain ⟨⟨hi, rest, he⟩, rfl, hv⟩ :=
    (decodeForm_readsAfter hclass).backward (c := c.advance 1) hwf h
  rw [← he] at hv ⊢
  exact ⟨hi, by simp [Nat.add_comm 1, Nat.add_assoc], by rw [hu, hv]; rfl⟩

/-- From a cursor inside the buffer, `decode` raises only errors an input can cause (R61, R86). -/
theorem decode_eq_raised {c c' : Cursor} {e : DecodeError} (hpos : c.pos ≤ c.buf.size)
    (hwf : c.buf.wf = true) (h : decode c = .raised e c') : reachableError e = true := by
  obtain h | ⟨b0, c0, hb0, h⟩ := Read.andThen_eq_raised.1 h
  · obtain ⟨rfl, -, -⟩ := Cursor.next_eq_raised h
    rfl
  obtain ⟨rfl, hu⟩ := Cursor.next_eq_got hwf hb0
  cases hclass : classify b0 with
  | error e' =>
    simp only [hclass, Read.ofExcept_error, Read.andThen_raised] at h
    cases h
    simp only [classify_eq_error hclass] at hclass ⊢
    simp [reachableError, hclass, Except.toOption]
  | ok form =>
    simp only [hclass, Read.ofExcept_ok, Read.andThen_got] at h
    have hin := Cursor.advance_inside (bs := [b0]) hpos hu
    obtain ⟨rfl, -, -⟩ := (decodeForm_readsAfter hclass).raised (c := c.advance 1) hin hwf h
    rfl

end Sys2Proof

/-! ### The step: its frame and the two invariants it keeps -/

namespace Sys2Proof.Machine

/-- Settles O6: one case of `State.result` per status; in `Failed` it reads only `err`. -/
theorem resultIsAFunctionOfTheFinalState : Obligations.ResultIsAFunctionOfTheFinalState := by
  refine ⟨fun s hs => ?_, fun s hs => ?_, fun s e hs he => ?_, fun s t hs ht he => ?_⟩
  · simp [State.result, hs]
  · simp [State.result, hs, header]
  · simp [State.result, hs, he]
  · simp [State.result, hs, ht, he]

/-- Settles O46: each of the three ways a step goes on is one of the three ends, field by field. -/
theorem stepFrame : Obligations.StepFrame := by
  intro s t h
  obtain ⟨hs, ⟨-, rfl⟩ | ⟨-, e, c, -, rfl⟩ | ⟨-, i, c, -, rfl⟩⟩ := step_cases h
  · simp [hs]
  · simp [hs]
  · simp [hs]

/-- An instruction fetched in a canonical buffer: well-formed, its bytes standing at the position, and
the cursor left past them. -/
theorem State.fetch_eq_got {s : State} {i : Instr} {c : Cursor} (hwf : s.buf.wf = true)
    (h : s.fetch = .got i c) :
    i.wf = true ∧ c.pos = s.pos + (encode i).length ∧ encode i <+: s.unread := by
  obtain ⟨hi, rfl, hu⟩ := decode_eq_got hwf h
  exact ⟨hi, rfl, _, hu.symm⟩

/-- Bytes that stand at the position end inside the buffer. -/
theorem State.pos_add_le_size {s : State} {bs : List Byte} (hpos : s.pos ≤ s.buf.size)
    (h : bs <+: s.unread) : s.pos + bs.length ≤ s.buf.size := by
  obtain ⟨rest, hu⟩ := h
  exact Cursor.advance_inside (c := s.cursor) hpos hu.symm

/-- Moving past the bytes that stand at the position adds them to the bytes read. -/
theorem State.take_pos_add {s : State} {bs : List Byte} (h : bs <+: s.unread) :
    s.buf.bytes.take (s.pos + bs.length) = s.buf.bytes.take s.pos ++ bs := by
  rw [List.take_add]
  congr 1
  exact (List.prefix_iff_eq_take.1 h).symm

/-- Settles O50: the ending step is at the end of the buffer; an error raised from inside the buffer is
one an input can cause; an instruction's bytes end inside the buffer. -/
theorem stepKeepsTheInvariant : Obligations.StepKeepsTheInvariant := by
  intro s t hinv h
  obtain ⟨hs, hcases⟩ := step_cases h
  have hwf := hinv.bufWf
  have hpos : s.pos ≤ s.buf.size := hinv.posInside (by simp [hs])
  have herr : s.err = none := hinv.errOnlyFailed (by simp [hs])
  obtain ⟨hend, rfl⟩ | ⟨-, e, c, hf, rfl⟩ | ⟨-, i, c, hf, rfl⟩ := hcases
  · constructor <;> simp [hwf, hend, herr]
  · have he := decode_eq_raised hpos hwf hf
    constructor <;> simp [hwf, he]
  · obtain ⟨-, hc, hp⟩ := State.fetch_eq_got hwf hf
    have hin := State.pos_add_le_size hpos hp
    constructor <;> simp [hwf, hs, herr, hc, hin]

/-- Settles O51: a step that reads an instruction adds its bytes to those read and its line to the
lines; the ending step adds to neither. -/
theorem stepKeepsLinesMatchingBytes : Obligations.StepKeepsLinesMatchingBytes := by
  intro s t hinv hlines h hne
  obtain ⟨hs, hcases⟩ := step_cases h
  obtain ⟨is, his, hbytes, hl⟩ := hlines (by simp [hs])
  obtain ⟨-, rfl⟩ | ⟨-, e, c, -, rfl⟩ | ⟨-, i, c, hf, rfl⟩ := hcases
  · exact ⟨is, his, hbytes, hl⟩
  · exact absurd rfl hne
  · obtain ⟨hi, hc, hp⟩ := State.fetch_eq_got hinv.bufWf hf
    refine ⟨is ++ [i], ?_, ?_, ?_⟩
    · simpa [or_imp, forall_and, hi] using his
    · simp [hc, State.take_pos_add hp, hbytes]
    · simp [hl, instrLine]

end Sys2Proof.Machine

/-! ### The buffer: an instruction's bytes alone fix what is read, and the end of the buffer ends the call -/

namespace Sys2Proof

open Machine (Memory Cursor)

/-- Where a well-formed instruction's bytes stand at the cursor, `decode` gives that instruction and
leaves the cursor after them (R46, R74). -/
theorem decode_of_prefix_encode {c : Cursor} {i : Instr} (hwf : c.buf.wf = true) (hi : i.wf = true)
    (hp : encode i <+: c.unread) : decode c = .got i (c.advance (encode i).length) := by
  obtain ⟨rest, hu⟩ := hp
  cases he : encode i with
  | nil => simpa [he] using (encodedLength i).1
  | cons b0 tl =>
    have hfirst : [b0] <+: encode i := ⟨tl, he.symm⟩
    have hclass := classify_of_prefix_encode hfirst
    have hu : c.unread = [b0] ++ (tl ++ rest) := by simpa [he] using hu.symm
    have hform := (decodeForm_readsAfter hclass).forward (c := c.advance 1) (rest := rest) hwf
      ⟨hi, hfirst⟩ (by simpa [he] using Cursor.unread_advance hu)
    simp [decode, Cursor.next_of_cons hwf hu, hclass, hform, he, Nat.add_assoc, Nat.add_comm 1]

/-- The bytes unread from behind the first part of a buffer are the rest of it. -/
theorem Machine.Cursor.unread_ofBytes_append (pre bs : List Byte) :
    (⟨Memory.ofBytes (pre ++ bs), pre.length⟩ : Cursor).unread = bs := by
  simp [Cursor.unread]

/-- Settles O20: the bytes read are the encoding of the instruction, and that encoding decodes to it at
any position of any buffer. -/
theorem decodingReadsOnlyTheInstructionsBytes : Obligations.DecodingReadsOnlyTheInstructionsBytes := by
  intro pre pre' bs post post' i c h hpos
  simp only [List.append_assoc] at h ⊢
  obtain ⟨hi, rfl, hu⟩ := decode_eq_got (Memory.wf_ofBytes _) h
  rw [Cursor.unread_ofBytes_append] at hu
  obtain rfl : bs = encode i := (List.append_inj hu (by simpa using hpos.symm)).1
  exact decode_of_prefix_encode (Memory.wf_ofBytes _) hi ⟨post', by rw [Cursor.unread_ofBytes_append]⟩

end Sys2Proof

namespace Sys2Proof.Machine

/-- Settles O40: a `Running` step looks first whether the cursor is at the end, and then only finishes. -/
theorem stepAtEndOfBufferIsDone : Obligations.StepAtEndOfBufferIsDone := by
  intro s hs hp
  have hend : s.cursor.atEnd = true := (Cursor.atEnd_iff _).2 hp
  simp [step, hs, hend, State.finish]

end Sys2Proof.Machine

/-! ### The encoding: the classifier, the two directions of the round trip, lengths and modes -/

namespace Sys2Proof

open Machine (Cursor Read)

/-- Settles O15: the bytes at the cursor are an encoding, and `decode` takes exactly these. -/
theorem decodeOfEncodeGivesTheInstruction : Obligations.DecodeOfEncodeGivesTheInstruction :=
  fun _ _ hwf hi hp => decode_of_prefix_encode hwf hi hp

/-- Settles O16: `decode_eq_got`, with the cursor taken apart. -/
theorem decodedBytesAreTheEncoding : Obligations.DecodedBytesAreTheEncoding := by
  intro c c' i hwf h
  obtain ⟨hi, rfl, hu⟩ := decode_eq_got hwf h
  exact ⟨hi, hu, rfl, rfl⟩

/-! #### The classifier and the register table -/

/-- A search of which at most one element can be the result does not depend on the order. -/
theorem find?_eq_of_perm {α : Type} {p : α → Bool} {xs ys : List α} (hperm : xs.Perm ys)
    (hone : (ys.filter p).length ≤ 1) : xs.find? p = ys.find? p := by
  have hfilter : (xs.filter p).Perm (ys.filter p) := hperm.filter p
  have heq : xs.filter p = ys.filter p := by
    cases hys : ys.filter p with
    | nil => exact List.perm_nil.1 (hys ▸ hfilter)
    | cons y rest =>
      obtain rfl : rest = [] := by simpa [hys] using hone
      exact List.perm_singleton.1 (hys ▸ hfilter)
  rw [← List.head?_filter, ← List.head?_filter, heq]

/-- Settles O10: each of the 256 bytes satisfies at most one pair, so the pair found is that one. -/
theorem classifierOrderChangesNoResult : Obligations.ClassifierOrderChangesNoResult := by
  have hone : ∀ b0 : Byte, (classifierTable.filter fun r => r.accepts b0).length ≤ 1 := by decide
  exact ⟨hone, fun rows b0 hperm => find?_eq_of_perm hperm (hone b0)⟩

/-- A byte satisfies a pair where the masked byte is the value (R49). -/
theorem ClassifierRow.accepts_iff (r : ClassifierRow) (b0 : Byte) :
    r.accepts b0 = true ↔ b0 &&& r.mask = r.value := beq_iff_eq

/-- Settles O9: the search passes over each pair that does not hold and stops at the first that does. -/
theorem classifierTestsPairsInOrder : Obligations.ClassifierTestsPairsInOrder := by
  intro b0
  unfold classify classifierTable
  split_ifs <;> simp [ClassifierRow.accepts_iff, *]

/-- Settles O11: each clause is about the 256 bytes or fewer. -/
theorem classificationOfAllFirstBytes : Obligations.ClassificationOfAllFirstBytes := by
  exact ⟨by decide, by decide, by decide, by decide, by decide, by decide⟩

/-- Settles O12: the 16 entries of the table. -/
theorem registerTable : Obligations.RegisterTable := ⟨rfl, rfl⟩

/-! #### Lengths (R64) -/

/-- An operand encodable under `w` has the displacement or address bytes its fields say (R56). -/
theorem length_tail_eq_dispLength {m : RmOperand} {w : Width} (h : m.wf w = true) :
    m.tail.length = dispLength m.mod m.rm := by
  cases m with
  | register r => rfl
  | direct a => rfl
  | based b =>
    have hb : b.code ≠ 0b110#3 := by simpa [Base.code_eq_bp, RmOperand.wf] using h
    simp [RmOperand.tail, RmOperand.mod, RmOperand.rm, dispLength, hb]
  | based8 b d => rfl
  | based16 b d => rfl

theorem length_encode_imm (v : Imm) : v.encode.length = immLength v.width := by
  cases v <;> rfl

/-- The length of a well-formed instruction is the one its first two bytes say (R64). -/
theorem length_encode {i : Instr} {b0 b1 : Byte} (hi : i.wf = true) (h : [b0, b1] <+: encode i) :
    (encode i).length = formLength i.form b0 b1 := by
  cases i with
  | movRImm dst imm =>
    obtain ⟨rfl, -⟩ := List.cons_prefix_cons.1 h
    simp [encode, Instr.form, formLength, length_encode_imm, Nat.add_comm]
  | movRmR dir reg rm =>
    obtain ⟨-, hb1⟩ := prefix_pair_iff.1 h
    obtain ⟨hmod, -, hrm⟩ := (modRegRm_eq_iff ..).1 hb1
    simp [encode, Instr.form, formLength, length_tail_eq_dispLength hi, hmod, hrm]
    omega
  | movAddrAx spare addr => rfl
  | movAxAddr spare addr => rfl
  | movRmImm spare dst imm =>
    obtain ⟨hb0, hb1⟩ := prefix_pair_iff.1 h
    obtain ⟨rfl, -⟩ := List.cons_prefix_cons.1 hb0
    obtain ⟨hmod, -, hrm⟩ := (modRegRm_eq_iff ..).1 hb1
    simp [encode, Instr.form, formLength, length_tail_eq_dispLength hi, hmod, hrm, length_encode_imm]
    omega

theorem immLength_ofBit (w : BitVec 1) : immLength (.ofBit w) = if w = 0 then 1 else 2 := by
  revert w; decide

theorem dispLength_eq (mod : BitVec 2) (rm : BitVec 3) :
    dispLength mod rm = if mod = 0b11#2 then 0
      else if mod = 0b00#2 then (if rm = 0b110#3 then 2 else 0)
      else if mod = 0b01#2 then 1 else 2 := by
  revert mod rm; decide

/-- Every encoding has two bytes to begin with (R46). -/
theorem exists_pair_prefix_encode (i : Instr) : ∃ b0 b1, [b0, b1] <+: encode i := by
  have hlen := (encodedLength i).1
  match h : encode i with
  | [] => simp [h] at hlen
  | [b0] => simp [h] at hlen
  | b0 :: b1 :: rest => exact ⟨b0, b1, rest, rfl⟩

/-- Settles O17: the bytes consumed are the instruction's encoding, whose length is its form's. -/
theorem lengthFixedByFirstTwoBytes : Obligations.LengthFixedByFirstTwoBytes := by
  intro c c' i hwf h
  obtain ⟨hi, rfl, hu⟩ := decode_eq_got hwf h
  obtain ⟨b0, b1, hp⟩ := exists_pair_prefix_encode i
  have hlen := length_encode hi hp
  have hform : classify b0 = .ok i.form := classify_of_prefix_encode ((List.prefix_append _ [b1]).trans hp)
  obtain ⟨rest, he⟩ := hp
  refine ⟨b0, b1, _, i.form, by rw [hu, ← he]; rfl, hform, ?_⟩
  simp only [Nat.add_sub_cancel_left, hlen, ← dispLength_eq]
  cases i.form with
  | immediateToRegister =>
    simp only [formLength, immLength_ofBit]
    split <;> rfl
  | registerOrMemoryToFromRegister => rfl
  | accumulatorToMemory => rfl
  | memoryToAccumulator => rfl
  | immediateToRegisterOrMemory => simp only [formLength, immLength_ofBit]

/-! #### The errors a read can raise, from any cursor -/

/-- A read that raises nothing but `TruncatedInput`. -/
def Machine.Read.OnlyTruncates {α : Type} (r : Read α) : Prop :=
  ∀ e c', r = .raised e c' → e = .truncatedInput

theorem onlyTruncates_got {α : Type} (a : α) (c : Cursor) : (Read.got a c).OnlyTruncates := by
  intro e c' h
  cases h

theorem onlyTruncates_andThen {α β : Type} {r : Read α} {f : α → Cursor → Read β}
    (hr : r.OnlyTruncates) (hf : ∀ a c, (f a c).OnlyTruncates) : (r.andThen f).OnlyTruncates := by
  intro e c' h
  obtain h | ⟨a, c1, -, h⟩ := Read.andThen_eq_raised.1 h
  · exact hr e c' h
  · exact hf a c1 e c' h

/-- A reader whose value is only renamed raises what it raised. -/
theorem onlyTruncates_map {α β : Type} {r : Read α} {k : α → β} (hr : r.OnlyTruncates) :
    (r.andThen fun a c => .got (k a) c).OnlyTruncates :=
  onlyTruncates_andThen hr fun _ _ => onlyTruncates_got _ _

theorem onlyTruncates_next (c : Cursor) : c.next.OnlyTruncates :=
  fun _ _ h => (Cursor.next_eq_raised h).1

/-- The register table raises nothing, since it is total (R54). -/
theorem onlyTruncates_regName (code : BitVec 3) (w : Width) (c : Cursor) :
    (Read.ofExcept (regName code w) c).OnlyTruncates := by
  obtain ⟨r, hr⟩ := regName_total code w
  rw [hr]
  exact onlyTruncates_got r c

theorem onlyTruncates_next16 (c : Cursor) : (next16 c).OnlyTruncates :=
  onlyTruncates_andThen (onlyTruncates_next c) fun _ c => onlyTruncates_map (onlyTruncates_next c)

theorem onlyTruncates_nextImm (w : Width) (c : Cursor) : (nextImm w c).OnlyTruncates := by
  cases w with
  | byte => exact onlyTruncates_map (onlyTruncates_next c)
  | word => exact onlyTruncates_map (onlyTruncates_next16 c)

/-- The four values of a 2-bit mod field leave nothing for the defensive arm (R61). -/
theorem onlyTruncates_decodeRM (mod : BitVec 2) (rm : BitVec 3) (w : Width) (c : Cursor) :
    (decodeRM mod rm w c).OnlyTruncates := by
  have hmod : mod = 0b11#2 ∨ mod = 0b00#2 ∨ mod = 0b01#2 ∨ mod = 0b10#2 := by revert mod; decide
  obtain rfl | rfl | rfl | rfl := hmod
  · exact onlyTruncates_map (onlyTruncates_regName rm w c)
  · simp only [decodeRM]
    split
    · exact onlyTruncates_map (onlyTruncates_next16 c)
    · exact onlyTruncates_got _ c
  · exact onlyTruncates_map (onlyTruncates_next c)
  · exact onlyTruncates_map (onlyTruncates_next16 c)

/-- After a classified first byte, only the end of the buffer can stop the read (R87). -/
theorem onlyTruncates_decodeForm (form : Form) (b0 : Byte) (c : Cursor) :
    (decodeForm form b0 c).OnlyTruncates := by
  cases form with
  | immediateToRegister =>
    exact onlyTruncates_andThen (onlyTruncates_nextImm _ c) fun _ c =>
      onlyTruncates_map (onlyTruncates_regName _ _ c)
  | registerOrMemoryToFromRegister =>
    exact onlyTruncates_andThen (onlyTruncates_next c) fun _ c =>
      onlyTruncates_andThen (onlyTruncates_regName _ _ c) fun _ c =>
        onlyTruncates_map (onlyTruncates_decodeRM _ _ _ c)
  | accumulatorToMemory => exact onlyTruncates_map (onlyTruncates_next16 c)
  | memoryToAccumulator => exact onlyTruncates_map (onlyTruncates_next16 c)
  | immediateToRegisterOrMemory =>
    exact onlyTruncates_andThen (onlyTruncates_next c) fun _ c =>
      onlyTruncates_andThen (onlyTruncates_decodeRM _ _ _ c) fun _ c =>
        onlyTruncates_map (onlyTruncates_nextImm _ c)

/-- Settles O18: the register table is total, the operand decoder and the forms only truncate, and the
classifier's one error is `UnsupportedOpcode`. -/
theorem defensiveErrorsAreUnreachable : Obligations.DefensiveErrorsAreUnreachable := by
  refine ⟨regName_total, fun mod m rm w c c' h => ?_, fun c c' e h => ?_⟩
  · cases onlyTruncates_decodeRM mod rm w c _ _ h
  · obtain h | ⟨b0, c0, -, h⟩ := Read.andThen_eq_raised.1 h
    · exact .inl (onlyTruncates_next c e c' h)
    cases hclass : classify b0 with
    | error e' =>
      simp only [hclass, Read.ofExcept_error, Read.andThen_raised] at h
      cases h
      exact .inr ⟨b0, classify_eq_error hclass⟩
    | ok form =>
      simp only [hclass, Read.ofExcept_ok, Read.andThen_got] at h
      exact .inl (onlyTruncates_decodeForm form b0 c0 e c' h)

/-! #### Addressing modes (R56) -/

/-- Where an operand's displacement or address bytes stand at the cursor, its fields give it back. -/
theorem decodeRM_of_prefix_tail {c : Cursor} {m : RmOperand} {mod : BitVec 2} {rm : BitVec 3} {w : Width}
    (hwf : c.buf.wf = true) (hm : m.mod = mod ∧ m.rm = rm ∧ m.wf w = true) (hp : m.tail <+: c.unread) :
    decodeRM mod rm w c = .got m (c.advance m.tail.length) := by
  obtain ⟨rest, hu⟩ := hp
  exact (decodeRM_reads mod rm w).forward hwf hm hu.symm

/-- Where fewer bytes remain than the mode takes, the operand is truncated. -/
theorem decodeRM_of_short {c : Cursor} {mod : BitVec 2} {rm : BitVec 3} (w : Width)
    (hwf : c.buf.wf = true) (hpos : c.pos ≤ c.buf.size) (hshort : c.unread.length < dispLength mod rm) :
    ∃ c', decodeRM mod rm w c = .raised .truncatedInput c' := by
  cases h : decodeRM mod rm w c with
  | got m c' =>
    obtain ⟨⟨rfl, rfl, hm⟩, -, hu⟩ := (decodeRM_reads mod rm w).backward hwf h
    have hlen := congrArg List.length hu
    rw [List.length_append, length_tail_eq_dispLength hm] at hlen
    omega
  | raised e c' =>
    obtain rfl := onlyTruncates_decodeRM mod rm w c _ _ h
    exact ⟨c', rfl⟩
  | outside => exact absurd h ((decodeRM_reads mod rm w).inside hpos hwf)

/-- Settles O21: each mode's operand, with its bytes at the cursor, is given back by its fields. -/
theorem addressingModes : Obligations.AddressingModes := by
  intro c rm w hwf hpos
  have hcode := code_baseExpr rm
  refine ⟨?_, fun lo hi hrm hp => ?_, fun hrm => ?_, fun b hp => ?_, fun lo hi hp => ?_,
    fun mod hshort => decodeRM_of_short w hwf hpos hshort⟩
  · obtain ⟨r, hr⟩ := regName_total rm w
    obtain ⟨hw, hc⟩ := regName_eq_ok hr
    exact ⟨r, hr, .register r,
      decodeRM_of_prefix_tail hwf ⟨rfl, hc, by simp [RmOperand.wf, hw]⟩ List.nil_prefix, rfl⟩
  · have hp : (RmOperand.direct (le16 lo hi)).tail <+: c.unread := by
      rwa [RmOperand.tail, encodeHalf_le16]
    exact ⟨.direct (le16 lo hi), decodeRM_of_prefix_tail hwf ⟨rfl, hrm.symm, rfl⟩ hp, rfl⟩
  · have hbp : baseExpr rm ≠ .bp := fun h => hrm (hcode ▸ Base.code_eq_bp.2 h)
    exact ⟨.based (baseExpr rm),
      decodeRM_of_prefix_tail hwf ⟨rfl, hcode, by simpa [RmOperand.wf] using hbp⟩ List.nil_prefix, rfl⟩
  · exact ⟨.based8 (baseExpr rm) b, decodeRM_of_prefix_tail hwf ⟨rfl, hcode, rfl⟩ hp, rfl⟩
  · have hp : (RmOperand.based16 (baseExpr rm) (le16 lo hi)).tail <+: c.unread := by
      rwa [RmOperand.tail, encodeHalf_le16]
    exact ⟨.based16 (baseExpr rm) (le16 lo hi), decodeRM_of_prefix_tail hwf ⟨rfl, hcode, rfl⟩ hp, rfl⟩

end Sys2Proof

/-! ### Steps and their lines: the bytes a step takes, and the text of a call -/

namespace Sys2Proof.Machine

/-- Settles O23: sign extension of 0 is 0, and 0 has no displacement term. -/
theorem zeroDisplacementIsTheSameOperand : Obligations.ZeroDisplacementIsTheSameOperand := by
  refine fun b => ⟨rfl, rfl, rfl, ?_⟩
  have hterm : displacementText (asI16 0#16) = "" := displacementText_zero
  simp [renderSpec, hterm]

/-- Where an instruction's bytes stand at the position, the position is before the end of the buffer. -/
theorem State.pos_lt_size {s : State} {i : Instr} (hp : encode i <+: s.unread) : s.pos < s.buf.size := by
  have hlen := hp.length_le
  have htwo := (encodedLength i).1
  simp [State.unread, Cursor.unread] at hlen
  omega

/-- Settles O47: only a step that reads an instruction stays `Running`, and it takes the 2 to 6 bytes of
that instruction, which end inside the buffer. -/
theorem runningStepConsumesTwoToSixBytes : Obligations.RunningStepConsumesTwoToSixBytes := by
  intro s t hwf h hrun
  obtain ⟨-, ⟨-, rfl⟩ | ⟨-, e, c, -, rfl⟩ | ⟨-, i, c, hf, rfl⟩⟩ := step_cases h
  · cases hrun
  · cases hrun
  · obtain ⟨-, hc, hp⟩ := State.fetch_eq_got hwf hf
    obtain ⟨hmin, hmax⟩ := encodedLength i
    have hin := State.pos_add_le_size (State.pos_lt_size hp).le hp
    simp only [maxLength] at hmax
    simp only [State.emit_pos, State.withPos_pos, State.emit_buf, State.withPos_buf, hc]
    omega

/-- The step over a well-formed instruction's bytes emits its line, from past these bytes (R74). -/
theorem step_of_prefix_encode {s : State} {i : Instr} (hs : s.status = .running) (hwf : s.buf.wf = true)
    (hi : i.wf = true) (hp : encode i <+: s.unread) :
    step s = .next ((s.withPos (s.pos + (encode i).length)).emit (instrRecord i)) := by
  have hf : s.fetch = .got i (s.cursor.advance (encode i).length) := decode_of_prefix_encode hwf hi hp
  rw [step_of_fetch hs (State.pos_lt_size hp).ne hf, exec_eq_emit]
  rfl

/-- Two instructions of one record and one length make the same step, each over its own bytes. -/
theorem step_eq_of_same_record {s t : State} {i j : Instr} (hs : s.Ready) (ht : t = { s with buf := t.buf })
    (htwf : t.buf.wf = true) (hi : i.wf = true) (hj : j.wf = true)
    (hrec : instrRecord j = instrRecord i) (hlen : (encode j).length = (encode i).length)
    (hpi : encode i <+: s.unread) (hpj : encode j <+: t.unread) :
    ∃ s', step s = .next s' ∧ step t = .next { s' with buf := t.buf } := by
  obtain ⟨hrun, hswf, -⟩ := hs
  have htrun : t.status = .running := by rw [ht]; exact hrun
  refine ⟨_, step_of_prefix_encode hrun hswf hi hpi, ?_⟩
  rw [step_of_prefix_encode htrun htwf hj hpj, hrec, hlen]
  conv_lhs => rw [ht]
  rfl

/-- Settles O32: no form's record and no form's length depends on its ignored bits. -/
theorem ignoredBitsChangeNothing : Obligations.IgnoredBitsChangeNothing :=
  ⟨fun _ _ _ _ _ hs ht htwf => step_eq_of_same_record hs ht htwf rfl rfl rfl rfl,
    fun _ _ _ _ _ hs ht htwf => step_eq_of_same_record hs ht htwf rfl rfl rfl rfl,
    fun _ _ _ _ _ _ hs ht htwf hm => step_eq_of_same_record hs ht htwf hm hm rfl rfl⟩

/-! #### The characters of a line (R45) -/

/-- A character that can stand in a line before its LF. -/
def inLineChar (ch : Char) : Bool := outputChar ch && ch != '\n'

/-- Text of which every character can stand in a line before its LF. -/
def inLine (text : String) : Bool := text.toList.all inLineChar

@[simp] theorem inLine_append (s t : String) : inLine (s ++ t) = (inLine s && inLine t) := by
  simp [inLine]

@[simp] theorem inLine_regText (r : Reg) : inLine (regText r) = true := by cases r <;> rfl

@[simp] theorem inLine_baseText (b : Base) : inLine (baseText b) = true := by cases b <;> rfl

theorem inLineChar_digitChar {d : Nat} (h : d < 10) : inLineChar (digitChar d) = true := by
  revert d; decide

theorem all_inLineChar_decDigits (fuel n : Nat) : (decDigits fuel n).all inLineChar = true := by
  induction fuel generalizing n with
  | zero => rfl
  | succ fuel ih =>
    have hlast := inLineChar_digitChar (Nat.mod_lt n (by decide : 10 > 0))
    simp only [decDigits, List.all_append, List.all_cons, List.all_nil, hlast, Bool.and_true]
    split
    · rfl
    · exact ih _

@[simp] theorem inLine_dec (n : Nat) : inLine (dec n) = true := by
  simp [inLine, dec, all_inLineChar_decDigits]

@[simp] theorem inLine_displacementText (d : Int) : inLine (displacementText d) = true := by
  have hplus : inLine " + " = true := rfl
  have hminus : inLine " - " = true := rfl
  unfold displacementText
  split_ifs
  · rfl
  · simp [hplus]
  · simp [hminus]

@[simp] theorem inLine_renderSpec (o : OperandSpec) : inLine (renderSpec o) = true := by
  have hopen : inLine "[" = true := rfl
  have hclose : inLine "]" = true := rfl
  cases o <;> simp [renderSpec, hopen, hclose]

@[simp] theorem inLine_render (o : Operand) : inLine (render o) = true := by
  cases o with
  | spec o => exact inLine_renderSpec o
  | imm v size =>
    have hsize : inLine (sizeText size) = true := by cases size <;> rfl
    simp [render, hsize]

/-- A line of the output: text that can stand before an LF, and one LF. -/
def IsLine (line : String) : Prop := ∃ body, line = body ++ "\n" ∧ inLine body = true

theorem isLine_renderLine (r : Record) : IsLine (renderLine r) := by
  have hmov : inLine "mov " = true := rfl
  have hcomma : inLine ", " = true := rfl
  exact ⟨_, rfl, by simp [hmov, hcomma]⟩

theorem IsLine.outputChar {line : String} (h : IsLine line) :
    ∀ ch ∈ line.toList, outputChar ch = true := by
  obtain ⟨body, rfl, hbody⟩ := h
  have hbody : ∀ ch ∈ body.toList, Machine.outputChar ch = true := by
    simp only [inLine, inLineChar, List.all_eq_true, Bool.and_eq_true] at hbody
    exact fun ch hch => (hbody ch hch).1
  have hlf : Machine.outputChar '\n' = true := rfl
  simpa [or_imp, forall_and, hlf] using hbody

theorem IsLine.count_lf {line : String} (h : IsLine line) : line.toList.count '\n' = 1 := by
  obtain ⟨body, rfl, hbody⟩ := h
  have hlf : '\n' ∉ body.toList := fun hmem => by
    have := List.all_eq_true.1 hbody _ hmem
    cases this
  simp [List.count_eq_zero.2 hlf]

theorem IsLine.getLast? {line : String} (h : IsLine line) : line.toList.getLast? = some '\n' := by
  obtain ⟨body, rfl, -⟩ := h
  simp

section
variable {lines : List String} (h : ∀ l ∈ lines, IsLine l)
include h

theorem outputChar_join_lines : ∀ ch ∈ (String.join lines).toList, outputChar ch = true := by
  intro ch hch
  rw [String.toList_join] at hch
  obtain ⟨l, hl, hch⟩ := List.mem_flatMap.1 hch
  exact (h l hl).outputChar ch hch

theorem count_lf_join_lines : (String.join lines).toList.count '\n' = lines.length := by
  induction lines with
  | nil => rfl
  | cons l ls ih =>
    obtain ⟨hl, hls⟩ := List.forall_mem_cons.1 h
    rw [String.join_cons, String.toList_append, List.count_append, hl.count_lf, ih hls, List.length_cons,
      Nat.add_comm]

theorem join_lines_ends_in_lf :
    (String.join lines).toList = [] ∨ (String.join lines).toList.getLast? = some '\n' := by
  induction lines with
  | nil => exact .inl rfl
  | cons l ls ih =>
    obtain ⟨hl, hls⟩ := List.forall_mem_cons.1 h
    right
    rw [String.join_cons, String.toList_append, List.getLast?_append, hl.getLast?]
    obtain hnil | hlast := ih hls
    · rw [hnil]; rfl
    · rw [hlast]; rfl

end

/-! #### The text of a call (R22, R107) -/

/-- What every step keeps holds where a call stands after any number of steps. -/
theorem runCall_keeps {P : State → Prop} (hstep : ∀ s t, P s → step s = .next t → P t) {fuel : Nat}
    {s t : State} (hs : P s) (h : runCall fuel s = .next t) : P t := by
  induction fuel generalizing s with
  | zero => cases h; exact hs
  | succ fuel ih =>
    cases hst : s.status with
    | running =>
      cases hnext : step s with
      | next s' =>
        rw [runCall_succ_of_step hnext] at h
        exact ih (hstep s s' hs hnext) h
      | fault r => simp [runCall, hst, hnext] at h
      | refused r => exact absurd hnext (step_not_refused s r)
    | done => rw [runCall_of_terminal (.inl hst)] at h; cases h; exact hs
    | failed => rw [runCall_of_terminal (.inr hst)] at h; cases h; exact hs

/-- A step adds to the lines at most one rendered line. -/
theorem step_keeps_isLine (s t : State) (hl : ∀ l ∈ s.lines, IsLine l) (h : step s = .next t) :
    ∀ l ∈ t.lines, IsLine l := by
  obtain ⟨-, ⟨-, rfl⟩ | ⟨-, e, c, -, rfl⟩ | ⟨-, i, c, -, rfl⟩⟩ := step_cases h
  · exact hl
  · exact hl
  · simpa [or_imp, forall_and, isLine_renderLine] using hl

/-- A text is a result only of `Done`: the header and the lines (R22). -/
theorem State.text_of_result {s : State} {text : String} (h : s.result = some (.ok text)) :
    text = header ++ String.join s.lines := by
  unfold State.result at h
  split at h
  · cases h
  · cases h; rfl
  · cases he : s.err <;> simp [he] at h

/-- A call with a text ended in a state with that result (R107). -/
theorem decodeCall_eq_some {bs : List Byte} {r : CallResult} (h : decodeCall bs = some r) :
    ∃ t, runCall (stepBound bs.length) (State.load bs) = .next t ∧ t.result = some r := by
  unfold decodeCall at h
  split at h
  · rename_i t hrun
    exact ⟨t, hrun, h⟩
  · cases h
  · cases h

/-- Settles O58: the text is the header and the lines of the final state, each a rendered line. -/
theorem outputTextShape : Obligations.OutputTextShape := by
  intro bs text h
  obtain ⟨t, hrun, hresult⟩ := decodeCall_eq_some h
  obtain rfl := State.text_of_result hresult
  have hlines : ∀ l ∈ t.lines, IsLine l := runCall_keeps step_keeps_isLine (by simp) hrun
  have hheader : ∀ ch ∈ header.toList, outputChar ch = true := List.all_eq_true.1 rfl
  have hcount : header.toList.count '\n' = 2 := by decide
  refine ⟨⟨_, String.toList_append, join_lines_ends_in_lf hlines⟩, fun ch hch => ?_, t, hrun, ?_⟩
  · rw [String.toList_append, List.mem_append] at hch
    exact hch.elim (hheader ch) (outputChar_join_lines hlines ch)
  · rw [String.toList_append, List.count_append, hcount, count_lf_join_lines hlines]

end Sys2Proof.Machine

/-! ### The five forms: their lines, their steps from the bits, and the steps of a whole call -/

namespace Sys2Proof

open Machine (Cursor Read)

/-- From a cursor inside the buffer, `decode` reads no offset outside it (R30). -/
theorem decode_ne_outside {c : Cursor} (hpos : c.pos ≤ c.buf.size) (hwf : c.buf.wf = true) :
    decode c ≠ .outside := by
  intro h
  obtain ⟨b0, rest, hu, hn⟩ | ⟨-, hn⟩ := Cursor.next_cases hwf hpos
  · cases hclass : classify b0 with
    | error e => simp [decode, hn, hclass] at h
    | ok form =>
      simp only [decode, hn, hclass, Read.ofExcept_ok, Read.andThen_got] at h
      exact (decodeForm_readsAfter hclass).inside (Cursor.advance_inside (bs := [b0]) hpos hu) hwf h
  · simp [decode, hn] at h

/-- A first byte that is no form's is refused, whatever follows it (R88). -/
theorem decode_of_unclassified {c : Cursor} {b0 : Byte} {rest : List Byte} {e : DecodeError}
    (hwf : c.buf.wf = true) (hu : c.unread = b0 :: rest) (hclass : classify b0 = .error e) :
    decode c = .raised e (c.advance 1) := by
  simp [decode, Cursor.next_of_cons hwf hu, hclass]

/-- Where a classified first byte is followed by fewer bytes than its form takes, or by none, the
instruction is truncated (R64, R87). -/
theorem decode_of_short {c : Cursor} {b0 : Byte} {rest : List Byte} {form : Form}
    (hpos : c.pos ≤ c.buf.size) (hwf : c.buf.wf = true) (hu : c.unread = b0 :: rest)
    (hclass : classify b0 = .ok form)
    (hshort : ∀ b1 tl, rest = b1 :: tl → rest.length + 1 < formLength form b0 b1) :
    ∃ c', decode c = .raised .truncatedInput c' := by
  cases h : decode c with
  | got i c' =>
    -- an instruction read would have its form's length, and that many bytes are not there
    obtain ⟨hi, -, hread⟩ := decode_eq_got hwf h
    obtain ⟨x, b1, hp⟩ := exists_pair_prefix_encode i
    have hlen := length_encode hi hp
    have hform := classify_of_prefix_encode ((List.prefix_append [x] [b1]).trans hp)
    obtain ⟨tl, he⟩ := hp
    rw [hu, ← he] at hread
    obtain ⟨rfl, rfl⟩ := List.cons.inj hread
    obtain rfl : i.form = form := by simpa [hclass] using hform.symm
    have hlt := hshort b1 _ rfl
    simp [← hlen, ← he] at hlt
  | raised e c' =>
    simp only [decode, Cursor.next_of_cons hwf hu, hclass, Read.ofExcept_ok, Read.andThen_got] at h
    obtain rfl := onlyTruncates_decodeForm form b0 _ e c' h
    exact ⟨c', rfl⟩
  | outside => exact absurd h (decode_ne_outside hpos hwf)

end Sys2Proof

namespace Sys2Proof.Machine

/-! #### What each form's meaning appends (R76, R77) -/

/-- Every form's meaning appends its instruction's line and changes nothing else (R74). -/
theorem exec_of_instrLine {i : Instr} {line : String} (hline : instrLine i = line) (s : State) :
    exec i s = .next { s with lines := s.lines ++ [line] } := by
  rw [exec_eq_emit, ← hline]
  rfl

theorem instrLine_movRImm (dst : Reg) (imm : Imm) :
    instrLine (.movRImm dst imm) = "mov " ++ regText dst ++ ", " ++ dec (immValue imm) ++ "\n" := by
  simp [instrLine, instrRecord, recordMovRImm, renderLine, render, renderSpec, sizeText]

theorem instrLine_movRmR (d : BitVec 1) (reg : Reg) (rm : RmOperand) :
    instrLine (.movRmR (.ofBit d) reg rm) =
      if d = 1 then "mov " ++ regText reg ++ ", " ++ renderSpec (rmSpec rm) ++ "\n"
      else "mov " ++ renderSpec (rmSpec rm) ++ ", " ++ regText reg ++ "\n" := by
  obtain rfl | rfl := BitVec.eq_zero_or_eq_one d <;> rfl

theorem instrLine_movAddrAx (spare : BitVec 1) (addr : Half) :
    instrLine (.movAddrAx spare addr) = "mov [" ++ dec addr.toNat ++ "], ax\n" := by
  apply String.ext
  simp [instrLine, instrRecord, recordMovAddrAx, accumulator, renderLine, render, renderSpec, regText]

theorem instrLine_movAxAddr (spare : BitVec 1) (addr : Half) :
    instrLine (.movAxAddr spare addr) = "mov ax, [" ++ dec addr.toNat ++ "]\n" := by
  apply String.ext
  simp [instrLine, instrRecord, recordMovAxAddr, accumulator, renderLine, render, renderSpec, regText]

theorem instrLine_movRmImm_byte (spare : BitVec 3) (dst : RmOperand) (v : Byte) :
    instrLine (.movRmImm spare dst (.byte v)) =
      "mov " ++ renderSpec (rmSpec dst) ++ ", byte " ++ dec v.toNat ++ "\n" := by
  apply String.ext
  simp [instrLine, instrRecord, recordMovRmImm, renderLine, render, immSize, sizeText, immValue]

theorem instrLine_movRmImm_word (spare : BitVec 3) (dst : RmOperand) (v : Half) :
    instrLine (.movRmImm spare dst (.word v)) =
      "mov " ++ renderSpec (rmSpec dst) ++ ", word " ++ dec v.toNat ++ "\n" := by
  apply String.ext
  simp [instrLine, instrRecord, recordMovRmImm, renderLine, render, immSize, sizeText, immValue]

/-- Settles O27: an immediate's line is one for both widths, with an empty size keyword. -/
theorem immediateToRegisterCompletes : Obligations.ImmediateToRegisterCompletes :=
  fun s dst => ⟨fun v => exec_of_instrLine (instrLine_movRImm dst (.byte v)) s,
    fun v => exec_of_instrLine (instrLine_movRImm dst (.word v)) s⟩

/-- Settles O28: the direction bit puts the two operands of the record in their order. -/
theorem registerOrMemoryMoveCompletes : Obligations.RegisterOrMemoryMoveCompletes :=
  fun s _ _ => ⟨exec_of_instrLine rfl s, exec_of_instrLine rfl s⟩

/-- Settles O29: the record of either form has `ax` and the address, not the ignored bit. -/
theorem accumulatorMovesComplete : Obligations.AccumulatorMovesComplete :=
  fun s spare addr => ⟨exec_of_instrLine (instrLine_movAddrAx spare addr) s,
    exec_of_instrLine (instrLine_movAxAddr spare addr) s⟩

/-- Settles O30: the size keyword is the one of the immediate's width. -/
theorem immediateToRegisterOrMemoryCompletes : Obligations.ImmediateToRegisterOrMemoryCompletes :=
  fun s spare dst => ⟨fun v => exec_of_instrLine (instrLine_movRmImm_byte spare dst v) s,
    fun v => exec_of_instrLine (instrLine_movRmImm_word spare dst v) s⟩

/-! #### The ways a step ends, from a state a step is defined from -/

/-- The state after the step over an instruction: past its bytes, its line appended (R74). -/
abbrev State.afterInstr (s : State) (i : Instr) : State :=
  (s.withPos (s.pos + (encode i).length)).emit (instrRecord i)

/-- Settles O33: the step emits the instruction's record from past its bytes, and so does `exec`. -/
theorem stepRunsTheDecodedInstruction : Obligations.StepRunsTheDecodedInstruction := by
  intro s i hs hi hp
  obtain ⟨hrun, hwf, -⟩ := hs
  rw [step_of_prefix_encode hrun hwf hi hp, exec_eq_emit]
  rfl

/-- Inside the buffer, nothing is unread exactly at its end. -/
theorem State.unread_eq_nil_iff {s : State} (hpos : s.pos ≤ s.buf.size) :
    s.unread = [] ↔ s.pos = s.buf.size := by
  simp [State.unread, Cursor.unread]
  omega

/-- A step whose read raises an error ends the call with it (R92). -/
theorem step_of_fetch_raised {s : State} {e : DecodeError} {c : Cursor} (hs : s.Ready)
    (hu : s.unread ≠ []) (h : s.fetch = .raised e c) :
    step s = .next ((s.withPos c.pos).raiseError e) := by
  obtain ⟨hrun, -, hpos⟩ := hs
  have hend : ¬s.cursor.atEnd = true := fun hend =>
    hu ((State.unread_eq_nil_iff hpos).2 ((Cursor.atEnd_iff _).1 hend))
  simp [step, hrun, hend, h]

/-- The three ends of a step from a state a step is defined from (R74): an instruction stood at the
position, or no byte was left, or the read raised an error an input can cause. -/
theorem step_of_ready {s : State} (hs : s.Ready) :
    (∃ i, i.wf = true ∧ encode i <+: s.unread ∧ step s = .next (s.afterInstr i)) ∨
      (s.unread = [] ∧ step s = .next s.finish) ∨
      ∃ e p, reachableError e = true ∧ step s = .next ((s.withPos p).raiseError e) := by
  have ⟨hrun, hwf, hpos⟩ := hs
  by_cases hu : s.unread = []
  · exact .inr (.inl ⟨hu, stepAtEndOfBufferIsDone s hrun ((State.unread_eq_nil_iff hpos).1 hu)⟩)
  cases hf : s.fetch with
  | got i c =>
    obtain ⟨hi, -, hp⟩ := State.fetch_eq_got hwf hf
    exact .inl ⟨i, hi, hp, step_of_prefix_encode hrun hwf hi hp⟩
  | raised e c =>
    exact .inr (.inr ⟨e, c.pos, decode_eq_raised hpos hwf hf, step_of_fetch_raised hs hu hf⟩)
  | outside => exact absurd hf (decode_ne_outside hpos hwf)

/-- Settles O45: each of the three ends, field by field. -/
theorem everyReadyStepGoesOn : Obligations.EveryReadyStepGoesOn := by
  intro s hs
  obtain ⟨i, hi, hp, hstep⟩ | ⟨hu, hstep⟩ | ⟨e, p, he, hstep⟩ := step_of_ready hs
  · obtain ⟨hrun, -, -⟩ := hs
    exact ⟨_, hstep, .inl ⟨i, hi, hp, hrun, rfl, rfl, rfl⟩⟩
  · exact ⟨_, hstep, .inr (.inl ⟨hu, rfl⟩)⟩
  · exact ⟨_, hstep, .inr (.inr ⟨e, he, rfl, rfl, rfl⟩)⟩

/-- A first byte that is no form's fails the step (R88). -/
theorem step_of_unclassified {s : State} {b0 : Byte} {rest : List Byte} {e : DecodeError} (hs : s.Ready)
    (hu : s.unread = b0 :: rest) (hclass : classify b0 = .error e) :
    ∃ p, step s = .next ((s.withPos p).raiseError e) := by
  have ⟨_, hwf, _⟩ := hs
  exact ⟨_, step_of_fetch_raised hs (by simp [hu]) (decode_of_unclassified hwf hu hclass)⟩

/-- Fewer bytes after a classified first byte than its form takes fail the step (R87). -/
theorem step_of_short {s : State} {b0 : Byte} {rest : List Byte} {form : Form} (hs : s.Ready)
    (hu : s.unread = b0 :: rest) (hclass : classify b0 = .ok form)
    (hshort : ∀ b1 tl, rest = b1 :: tl → rest.length + 1 < formLength form b0 b1) :
    ∃ p, step s = .next ((s.withPos p).raiseError .truncatedInput) := by
  have ⟨_, hwf, hpos⟩ := hs
  obtain ⟨c, hc⟩ := decode_of_short hpos hwf hu hclass hshort
  exact ⟨_, step_of_fetch_raised hs (by simp [hu]) hc⟩

/-- The same, read off the state the step leaves. -/
theorem step_truncates_of_short {s : State} {b0 : Byte} {rest : List Byte} {form : Form} (hs : s.Ready)
    (hu : s.unread = b0 :: rest) (hclass : classify b0 = .ok form)
    (hshort : ∀ b1 tl, rest = b1 :: tl → rest.length + 1 < formLength form b0 b1) :
    ∃ t, step s = .next t ∧ t.status = .failed ∧ t.err = some .truncatedInput ∧ t.lines = s.lines := by
  obtain ⟨p, h⟩ := step_of_short hs hu hclass hshort
  exact ⟨_, h, rfl, rfl, rfl⟩

end Sys2Proof.Machine

namespace Sys2Proof

open Machine (Cursor Memory Read)

/-! #### The bytes of an instruction, from its fields (R46) -/

@[simp] theorem modField_append (mod : BitVec 2) (reg rm : BitVec 3) :
    modField (mod ++ reg ++ rm) = mod := by
  revert mod reg rm; decide

@[simp] theorem rmField_append (mod : BitVec 2) (reg rm : BitVec 3) :
    rmField (mod ++ reg ++ rm) = rm := by
  revert mod reg rm; decide

theorem toNat_le16 (lo hi : Byte) : (le16 lo hi).toNat = lo.toNat + 256 * hi.toNat := by
  have hor : hi.toNat <<< 8 + lo.toNat = hi.toNat <<< 8 ||| lo.toNat :=
    Nat.shiftLeft_add_eq_or_of_lt lo.isLt _
  have hlo : lo.toNat % 65536 = lo.toNat := by omega
  have hhi : (hi.toNat % 65536) <<< 8 % 65536 = hi.toNat <<< 8 := by simp only [Nat.shiftLeft_eq]; omega
  simp only [le16, BitVec.toNat_or, BitVec.toNat_shiftLeft, BitVec.toNat_setWidth, Nat.reducePow, hlo, hhi,
    Nat.or_comm lo.toNat]
  omega

theorem exists_encodeHalf {bs : List Byte} (h : bs.length = 2) : ∃ a, encodeHalf a = bs := by
  obtain ⟨lo, hi, rfl⟩ := List.length_eq_two.1 h
  exact ⟨le16 lo hi, encodeHalf_le16 lo hi⟩

/-- As many bytes as a mode takes are the displacement or address bytes of an operand of that mode. -/
theorem exists_operand (mod : BitVec 2) (rm : BitVec 3) (w : Width) {disp : List Byte}
    (hlen : disp.length = dispLength mod rm) :
    ∃ m : RmOperand, (m.mod = mod ∧ m.rm = rm ∧ m.wf w = true) ∧ m.tail = disp := by
  have hmod : ∀ x : BitVec 2, x = 0b11#2 ∨ x = 0b00#2 ∨ x = 0b01#2 ∨ x = 0b10#2 := by decide
  have hcode := code_baseExpr rm
  obtain rfl | rfl | rfl | rfl := hmod mod
  · obtain ⟨r, hr⟩ := regName_total rm w
    obtain ⟨hw, hc⟩ := regName_eq_ok hr
    obtain rfl := List.length_eq_zero_iff.1 hlen
    exact ⟨.register r, ⟨rfl, hc, by simp [RmOperand.wf, hw]⟩, rfl⟩
  · by_cases hrm : rm = 0b110#3
    · subst hrm
      obtain ⟨a, rfl⟩ := exists_encodeHalf hlen
      exact ⟨.direct a, ⟨rfl, rfl, rfl⟩, rfl⟩
    · have hbp : baseExpr rm ≠ .bp := fun h => hrm (hcode ▸ Base.code_eq_bp.2 h)
      obtain rfl : disp = [] := by simpa [dispLength, hrm] using hlen
      exact ⟨.based (baseExpr rm), ⟨rfl, hcode, by simpa [RmOperand.wf] using hbp⟩, rfl⟩
  · obtain ⟨d, rfl⟩ := List.length_eq_one_iff.1 hlen
    exact ⟨.based8 (baseExpr rm) d, ⟨rfl, hcode, rfl⟩, rfl⟩
  · obtain ⟨d, rfl⟩ := exists_encodeHalf hlen
    exact ⟨.based16 (baseExpr rm) d, ⟨rfl, hcode, rfl⟩, rfl⟩

/-- An operand's displacement or address bytes alone, read under its fields, give it back (R56). -/
theorem decodeRM_ofBytes_tail {m : RmOperand} {mod : BitVec 2} {rm : BitVec 3} {w : Width}
    (hm : m.mod = mod ∧ m.rm = rm ∧ m.wf w = true) :
    decodeRM mod rm w ⟨Memory.ofBytes m.tail, 0⟩ =
      .got m ⟨Memory.ofBytes m.tail, m.tail.length⟩ := by
  have hp : m.tail <+: (⟨Memory.ofBytes m.tail, 0⟩ : Cursor).unread := by simp [Cursor.unread]
  simpa [Cursor.advance] using decodeRM_of_prefix_tail (Memory.wf_ofBytes _) hm hp

/-! #### The classes of the first bytes, as their bits say them (R46, R49) -/

theorem classify_immediateToRegister (w : BitVec 1) (code : BitVec 3) :
    classify (0b1011#4 ++ w ++ code) = .ok .immediateToRegister := by
  revert w code; decide

theorem classify_registerOrMemoryToFromRegister (d w : BitVec 1) :
    classify (0b100010#6 ++ d ++ w) = .ok .registerOrMemoryToFromRegister := by
  revert d w; decide

theorem classify_accumulatorToMemory (x : BitVec 1) :
    classify (0b1010001#7 ++ x) = .ok .accumulatorToMemory := by
  revert x; decide

theorem classify_memoryToAccumulator (x : BitVec 1) :
    classify (0b1010000#7 ++ x) = .ok .memoryToAccumulator := by
  revert x; decide

theorem ofBit_eq_ite (w : BitVec 1) : Width.ofBit w = if w = 0 then .byte else .word := by
  revert w; decide

end Sys2Proof

namespace Sys2Proof.Machine

/-! #### Each form's step, from the bits at the position (R78 to R82) -/

/-- The step over the bytes of an instruction appends its line and moves past them (R74). -/
theorem step_of_bytes {s : State} {i : Instr} {bs : List Byte} {line : String} (hs : s.Ready)
    (hi : i.wf = true) (hbytes : encode i = bs) (hline : instrLine i = line) (hp : bs <+: s.unread) :
    step s = .next { s with pos := s.pos + bs.length, lines := s.lines ++ [line] } := by
  subst hbytes
  rw [stepRunsTheDecodedInstruction s i hs hi hp, exec_of_instrLine hline]

/-- The step over `1011 w rrr` and an immediate of width `w`. -/
theorem step_over_movRImm {s : State} {w : BitVec 1} {code : BitVec 3} {v : Imm} (hs : s.Ready)
    (hv : v.width = .ofBit w) (hp : (0b1011#4 ++ w ++ code) :: v.encode <+: s.unread) :
    ∃ r, regName code (.ofBit w) = .ok r ∧
      step s = .next { s with
        pos := s.pos + (v.encode.length + 1)
        lines := s.lines ++ ["mov " ++ regText r ++ ", " ++ dec (immValue v) ++ "\n"] } := by
  obtain ⟨r, hr⟩ := regName_total code (.ofBit w)
  obtain ⟨hw, hc⟩ := regName_eq_ok hr
  have hbytes : encode (.movRImm r v) = (0b1011#4 ++ w ++ code) :: v.encode := by
    simp [encode, hv, hc]
  exact ⟨r, hr, step_of_bytes hs (by simp [Instr.wf, hw, hv]) hbytes (instrLine_movRImm r v) hp⟩

/-- Settles O34: the two widths are the two values of the bit `w`, and an immediate with too few bytes
leaves the form short. -/
theorem stepOverImmediateToRegister : Obligations.StepOverImmediateToRegister := by
  intro s code hs
  have hbyte : ∀ code : BitVec 3, (0b1011_0#5 ++ code : Byte) = 0b1011#4 ++ 0#1 ++ code := by decide
  have hword : ∀ code : BitVec 3, (0b1011_1#5 ++ code : Byte) = 0b1011#4 ++ 1#1 ++ code := by decide
  refine ⟨fun b hp => ?_, fun lo hi hp => ?_, fun w rest hu hshort => ?_⟩
  · rw [hbyte] at hp
    exact step_over_movRImm (v := .byte b) hs rfl hp
  · rw [hword, ← encodeHalf_le16] at hp
    rw [← toNat_le16]
    exact step_over_movRImm (v := .word (le16 lo hi)) hs rfl hp
  · refine step_truncates_of_short hs hu (classify_immediateToRegister w code) fun b1 tl _ => ?_
    simp only [formLength, irW_append, immLength_ofBit]
    omega

/-- Settles O36: the address is the form's two bytes, and it is 3 bytes long. -/
theorem stepOverAccumulatorToMemory : Obligations.StepOverAccumulatorToMemory := by
  refine fun s x hs => ⟨fun lo hi hp => ?_, fun rest hu hshort => ?_⟩
  · rw [← encodeHalf_le16] at hp
    rw [← toNat_le16]
    exact step_of_bytes hs (i := .movAddrAx x (le16 lo hi)) rfl rfl (instrLine_movAddrAx x _) hp
  · exact step_truncates_of_short hs hu (classify_accumulatorToMemory x) fun _ _ _ => Nat.succ_lt_succ hshort

/-- Settles O37: the same for the other accumulator form. -/
theorem stepOverMemoryToAccumulator : Obligations.StepOverMemoryToAccumulator := by
  refine fun s x hs => ⟨fun lo hi hp => ?_, fun rest hu hshort => ?_⟩
  · rw [← encodeHalf_le16] at hp
    rw [← toNat_le16]
    exact step_of_bytes hs (i := .movAxAddr x (le16 lo hi)) rfl rfl (instrLine_movAxAddr x _) hp
  · exact step_truncates_of_short hs hu (classify_memoryToAccumulator x) fun _ _ _ => Nat.succ_lt_succ hshort

/-- Settles O39: the register of these bytes' instruction is well-formed under width 0, the form's only
one. -/
theorem immediateFormForcesByteRegister : Obligations.ImmediateFormForcesByteRegister := by
  intro s x rm lo hi hs hp
  obtain ⟨r, hr⟩ := regName_total rm .byte
  obtain ⟨hw, rfl⟩ := regName_eq_ok hr
  refine ⟨r, hr, hw, ?_⟩
  rw [← toNat_le16]
  have hbytes : encode (.movRmImm x (.register r) (.word (le16 lo hi))) =
      [0xC7#8, (0b11#2 ++ x ++ r.code : Byte), lo, hi] := by
    simp [encode, Imm.width, Width.bit, modRegRm, RmOperand.mod, RmOperand.rm, RmOperand.tail,
      Imm.encode, encodeHalf_le16]
  exact step_of_bytes hs (by simp [Instr.wf, RmOperand.wf, hw]) hbytes
    (instrLine_movRmImm_word x _ _) hp

/-- Settles O35: the displacement bytes are those of one operand with these fields, and too few of them
leave the form short. -/
theorem stepOverRegisterOrMemoryMove : Obligations.StepOverRegisterOrMemoryMove := by
  intro s d w mod reg rm hs
  simp only [← ofBit_eq_ite]
  refine ⟨fun disp hlen hp => ?_, fun hu => ?_⟩
  · obtain ⟨r, hr⟩ := regName_total reg (.ofBit w)
    obtain ⟨hw, rfl⟩ := regName_eq_ok hr
    obtain ⟨m, hm, rfl⟩ := exists_operand mod rm (.ofBit w) hlen
    refine ⟨r, m, hr, decodeRM_ofBytes_tail hm, ?_⟩
    obtain ⟨rfl, rfl, hmw⟩ := hm
    have hbytes : encode (.movRmR (.ofBit d) r m) =
        [(0b100010#6 ++ d ++ w : Byte), (m.mod ++ r.code ++ m.rm : Byte)] ++ m.tail := by
      simp [encode, hw, modRegRm]
    rw [step_of_bytes hs (by simpa [Instr.wf, hw] using hmw) hbytes (instrLine_movRmR d r m) hp]
    simp [Nat.add_assoc, Nat.add_comm 2]
  · have hclass := classify_registerOrMemoryToFromRegister d w
    obtain hu | ⟨rest, hu, hshort⟩ := hu
    · exact step_truncates_of_short hs hu hclass nofun
    · refine step_truncates_of_short hs hu hclass ?_
      rintro _ _ ⟨⟩
      simp [formLength]
      omega

end Sys2Proof.Machine

namespace Sys2Proof.Machine

/-! #### The steps of a whole call (R107, R108) -/

@[simp] theorem State.unread_load (bs : List Byte) : (State.load bs).unread = bs := by
  simp [State.unread, Cursor.unread]

theorem ready_load (bs : List Byte) : (State.load bs).Ready := ⟨rfl, by simp, by simp⟩

theorem State.unread_afterInstr {s : State} {i : Instr} {rest : List Byte}
    (hu : s.unread = encode i ++ rest) : (s.afterInstr i).unread = rest :=
  Cursor.unread_advance (c := s.cursor) hu

/-- After an instruction another step is defined. -/
theorem State.Ready.afterInstr {s : State} {i : Instr} (hs : s.Ready) (hp : encode i <+: s.unread) :
    (s.afterInstr i).Ready := by
  obtain ⟨hrun, hwf, hpos⟩ := hs
  exact ⟨hrun, hwf, State.pos_add_le_size hpos hp⟩

/-- A step into a terminal state is the last of its call (R93, R107). -/
theorem runCall_of_step_terminal {s t : State} (h : step s = .next t)
    (ht : t.status = .done ∨ t.status = .failed) (fuel : Nat) : runCall (fuel + 1) s = .next t := by
  rw [runCall_succ_of_step h, runCall_of_terminal ht]

/-- With fewer than `2 * n` bytes unread, a call is over after `n` steps: each step that does not end it
takes at least 2 bytes. -/
theorem runCall_ends (n : Nat) {s : State} (hs : s.Ready) (hn : s.unread.length < 2 * n) :
    ∃ t, (t.status = .done ∨ t.status = .failed) ∧ ∀ fuel, n ≤ fuel → runCall fuel s = .next t := by
  induction n generalizing s with
  | zero => omega
  | succ n ih =>
    -- every call that is still to end makes a first step
    suffices h : ∃ t, (t.status = .done ∨ t.status = .failed) ∧
        ∀ fuel, n ≤ fuel → runCall (fuel + 1) s = .next t by
      obtain ⟨t, ht, h⟩ := h
      refine ⟨t, ht, fun fuel hfuel => ?_⟩
      obtain ⟨k, rfl⟩ := Nat.exists_eq_add_of_le' hfuel
      exact h (k + n) (Nat.le_add_left n k)
    obtain ⟨i, hi, hp, hstep⟩ | ⟨-, hstep⟩ | ⟨e, p, -, hstep⟩ := step_of_ready hs
    · have hlen := (encodedLength i).1
      have hready := hs.afterInstr hp
      obtain ⟨rest, hu⟩ := hp
      have hrest := State.unread_afterInstr hu.symm
      rw [← hu, List.length_append] at hn
      obtain ⟨t, ht, hrun⟩ := ih hready (by rw [hrest]; omega)
      exact ⟨t, ht, fun fuel hfuel => by rw [runCall_succ_of_step hstep, hrun fuel hfuel]⟩
    · exact ⟨_, .inl rfl, fun fuel _ => runCall_of_step_terminal hstep (.inl rfl) fuel⟩
    · exact ⟨_, .inr rfl, fun fuel _ => runCall_of_step_terminal hstep (.inr rfl) fuel⟩

/-- Settles O53: `n` bytes are fewer than twice the bound. -/
theorem callEndsWithinItsBound : Obligations.CallEndsWithinItsBound :=
  fun bs => runCall_ends (bs.length / 2 + 1) (ready_load bs) (by simp; omega)

/-- Where all runs of `k` steps and more end in one state, the call's result is that state's (R107). -/
theorem decodeCall_of_runCall {bs : List Byte} {k : Nat} {t : State}
    (h : ∀ fuel, runCall (k + fuel) (State.load bs) = .next t) : decodeCall bs = t.result := by
  obtain ⟨t', -, hbound⟩ := callEndsWithinItsBound bs
  have hlong := hbound _ (Nat.le_add_left _ k)
  rw [h] at hlong
  cases hlong
  simp only [decodeCall, stepBound, hbound _ le_rfl]

/-- Where instructions stand at the position, a call makes one step over each and goes on from past
them, with their lines appended. -/
theorem runCall_over_instrs {is : List Instr} {rest : List Byte} (his : ∀ i ∈ is, i.wf = true)
    {s : State} (hs : s.Ready) (hu : s.unread = (is.map encode).flatten ++ rest) :
    ∃ t : State, t.Ready ∧ t.unread = rest ∧ t.lines = s.lines ++ is.map instrLine ∧
      ∀ fuel, runCall (is.length + fuel) s = runCall fuel t := by
  induction is generalizing s with
  | nil => exact ⟨s, hs, by simpa using hu, by simp, by simp⟩
  | cons i is ih =>
    obtain ⟨hi, his⟩ := List.forall_mem_cons.1 his
    rw [List.map_cons, List.flatten_cons, List.append_assoc] at hu
    have hp : encode i <+: s.unread := ⟨_, hu.symm⟩
    have ⟨hrunning, hwf, _⟩ := hs
    have hstep := step_of_prefix_encode hrunning hwf hi hp
    obtain ⟨t, ht, htu, hlines, hrun⟩ := ih his (hs.afterInstr hp) (State.unread_afterInstr hu)
    refine ⟨t, ht, htu, by simp [hlines, instrLine], fun fuel => ?_⟩
    rw [List.length_cons, Nat.add_right_comm, runCall_succ_of_step hstep, hrun]

/-- A call over complete instructions, then bytes on which a step raises an error, has that error alone
as its result (R94). -/
theorem decodeCall_of_raised {is : List Instr} {rest : List Byte} {e : DecodeError}
    (his : ∀ i ∈ is, i.wf = true)
    (hraise : ∀ t : State, t.Ready → t.unread = rest →
      ∃ p, step t = .next ((t.withPos p).raiseError e)) :
    decodeCall ((is.map encode).flatten ++ rest) = some (.err e) := by
  obtain ⟨t, ht, hu, -, hrun⟩ := runCall_over_instrs his (ready_load _) (State.unread_load _)
  obtain ⟨p, hstep⟩ := hraise t ht hu
  rw [decodeCall_of_runCall (k := is.length + 1) (t := (t.withPos p).raiseError e) fun fuel => by
    rw [Nat.add_assoc, hrun, Nat.add_comm 1, runCall_of_step_terminal hstep (.inr rfl)]]
  rfl

/-- Settles O56: past the complete instructions, the next step refuses the first byte or finds its form
short. -/
theorem firstErrorIsReported : Obligations.FirstErrorIsReported := by
  refine ⟨fun is b0 rest his hclass => ?_, fun is i part his hi hne hp hpart => ?_⟩
  · exact decodeCall_of_raised his fun t ht hu => step_of_unclassified ht hu hclass
  · refine decodeCall_of_raised his fun t ht hu => ?_
    have hlt : part.length < (encode i).length :=
      lt_of_le_of_ne hp.length_le fun h => hpart (hp.eq_of_length h)
    obtain ⟨b0, rest, rfl⟩ := List.exists_cons_of_ne_nil hne
    have hclass := classify_of_prefix_encode ((List.prefix_append [b0] rest).trans hp)
    refine step_of_short ht hu hclass ?_
    rintro b1 tl rfl
    rwa [length_encode hi ((List.prefix_append [b0, b1] tl).trans hp)] at hlt

end Sys2Proof.Machine

/-! ### The exceptions: how an error ends the call -/

namespace Sys2Proof.Machine

/-- A `Running` step before the end of the buffer ends the call with whatever error its read raises, in
a canonical buffer or not (R92). -/
theorem step_of_decode_raised {s : State} {e : DecodeError} {c : Cursor} (hrun : s.status = .running)
    (hpos : s.pos ≠ s.buf.size) (h : decode ⟨s.buf, s.pos⟩ = .raised e c) :
    step s = .next ((s.withPos c.pos).raiseError e) := by
  have hend : ¬s.cursor.atEnd = true := fun hend => hpos ((Cursor.atEnd_iff _).1 hend)
  have hfetch : s.fetch = .raised e c := h
  simp [step, hrun, hend, hfetch]

/-- The state a raised error leaves: `Failed` with that error, which alone is the result (R92, R94). -/
theorem fails_of_step_raises {s : State} {e : DecodeError}
    (h : ∃ p, step s = .next ((s.withPos p).raiseError e)) :
    ∃ p t, step s = .next t ∧ t = { s with pos := p, status := .failed, err := some e } ∧
      t.result = some (.err e) := by
  obtain ⟨p, h⟩ := h
  exact ⟨p, _, h, rfl, rfl⟩

/-- Settles O43: the step raises what its read raised. -/
theorem anyErrorEndsTheCall : Obligations.AnyErrorEndsTheCall :=
  fun _ _ _ hrun hpos h => fails_of_step_raises ⟨_, step_of_decode_raised hrun hpos h⟩

/-- Settles O44: a step that goes on starts from `Running`. -/
theorem terminalStatesHaveNoStep : Obligations.TerminalStatesHaveNoStep := by
  intro s t hterminal h
  obtain ⟨hrun, -⟩ := step_cases h
  simp [hrun] at hterminal

/-- The bytes outside the ranges of the five forms are left to the table's last case (R51, R88). -/
theorem classify_of_outside_ranges {b0 : Byte} (hrm : ¬(0x88#8 ≤ b0 ∧ b0 ≤ 0x8B#8))
    (hacc : ¬(0xA0#8 ≤ b0 ∧ b0 ≤ 0xA3#8)) (hir : ¬(0xB0#8 ≤ b0 ∧ b0 ≤ 0xBF#8))
    (hirm : ¬(0xC6#8 ≤ b0 ∧ b0 ≤ 0xC7#8)) : classify b0 = .error (.unsupportedOpcode b0) := by
  obtain ⟨htable, -⟩ := classificationOfAllFirstBytes
  have hma : ¬(0xA0#8 ≤ b0 ∧ b0 ≤ 0xA1#8) := fun ⟨hlo, hhi⟩ => hacc ⟨hlo, BitVec.le_trans hhi (by decide)⟩
  have ham : ¬(0xA2#8 ≤ b0 ∧ b0 ≤ 0xA3#8) := fun ⟨hlo, hhi⟩ =>
    hacc ⟨BitVec.le_trans (by decide) hlo, hhi⟩
  rw [htable, if_neg hrm, if_neg hma, if_neg ham, if_neg hir, if_neg hirm]

/-- Settles O41: the first byte is refused before anything after it is read. -/
theorem unsupportedFirstByteFailsTheCall : Obligations.UnsupportedFirstByteFailsTheCall := by
  intro s b0 rest hs hu hrm hacc hir hirm
  have hclass := classify_of_outside_ranges hrm hacc hir hirm
  exact fails_of_step_raises (step_of_unclassified hs hu hclass)

/-- Where the buffer ends inside an instruction, fewer bytes are left than its form takes, so the step is
truncated (R64, R87). -/
theorem step_of_partial_encode {s : State} {i : Instr} (hs : s.Ready) (hi : i.wf = true)
    (hne : s.unread ≠ []) (hp : s.unread <+: encode i) (hpart : s.unread ≠ encode i) :
    ∃ p, step s = .next ((s.withPos p).raiseError .truncatedInput) := by
  have hlt : s.unread.length < (encode i).length :=
    lt_of_le_of_ne hp.length_le fun h => hpart (hp.eq_of_length h)
  obtain ⟨b0, rest, hu⟩ := List.exists_cons_of_ne_nil hne
  rw [hu] at hp hlt
  have hclass := classify_of_prefix_encode ((List.prefix_append [b0] rest).trans hp)
  refine step_of_short hs hu hclass ?_
  rintro b1 tl rfl
  rwa [length_encode hi ((List.prefix_append [b0, b1] tl).trans hp)] at hlt

/-- A step that fails does so before the end of the buffer (R74). -/
theorem pos_ne_size_of_step_failed {s t : State} (h : step s = .next t) (hfail : t.status = .failed) :
    s.pos ≠ s.buf.size := by
  obtain ⟨-, ⟨-, rfl⟩ | ⟨hpos, -⟩ | ⟨hpos, -⟩⟩ := step_cases h
  · cases hfail
  · exact hpos
  · exact hpos

/-- Settles O42: a proper part of an encoding leaves its form short; and a step that fails has a first
byte, which, were it not classified, would be the error instead. -/
theorem truncatedInstructionFailsTheCall : Obligations.TruncatedInstructionFailsTheCall := by
  refine ⟨fun s i hs hi hne hp hpart =>
    fails_of_step_raises (step_of_partial_encode hs hi hne hp hpart), fun s t hs h hfail herr => ?_⟩
  have ⟨_, _, hpos⟩ := hs
  have hne : s.unread ≠ [] := fun hu =>
    pos_ne_size_of_step_failed h hfail ((State.unread_eq_nil_iff hpos).1 hu)
  obtain ⟨b0, rest, hu⟩ := List.exists_cons_of_ne_nil hne
  cases hclass : classify b0 with
  | ok form => exact ⟨b0, rest, form, hu, hclass⟩
  | error e =>
    obtain ⟨p, hraise⟩ := step_of_unclassified hs hu hclass
    obtain rfl := classify_eq_error hclass
    rw [hraise] at h
    cases h
    cases herr

end Sys2Proof.Machine

/-! ### The result of a whole call: over complete instructions, over joined buffers, over none -/

namespace Sys2Proof.Machine

/-- A text is the result exactly in `Done`: the header and the lines (R22). -/
theorem State.result_eq_ok_iff {s : State} {text : String} :
    s.result = some (.ok text) ↔ s.status = .done ∧ text = header ++ String.join s.lines := by
  cases hs : s.status <;> simp [State.result, hs, eq_comm]

/-- A call begins inside the invariant. -/
theorem inv_load (bs : List Byte) : (State.load bs).Inv := by
  constructor <;> simp

/-- A call begins with no byte read and no line. -/
theorem linesMatchBytes_load (bs : List Byte) : (State.load bs).LinesMatchBytes :=
  fun _ => ⟨[], by simp⟩

/-- Wherever a call stands, both invariants hold and its buffer is the one it was started with (R14). -/
theorem invariants_of_runCall {bs : List Byte} {fuel : Nat} {t : State}
    (h : runCall fuel (State.load bs) = .next t) :
    t.Inv ∧ t.LinesMatchBytes ∧ t.buf = Memory.ofBytes bs := by
  refine runCall_keeps (P := fun s => s.Inv ∧ s.LinesMatchBytes ∧ s.buf = Memory.ofBytes bs)
    (fun s t hs hstep => ?_) ⟨inv_load bs, linesMatchBytes_load bs, rfl⟩ h
  obtain ⟨hinv, hlines, hbuf⟩ := hs
  obtain ⟨hframe, -⟩ := stepFrame s t hstep
  exact ⟨stepKeepsTheInvariant s t hinv hstep, stepKeepsLinesMatchingBytes s t hinv hlines hstep,
    hframe.trans hbuf⟩

/-- A call that ends in `Done` has read its whole buffer (R33). -/
theorem pos_of_runCall_done {bs : List Byte} {fuel : Nat} {t : State}
    (h : runCall fuel (State.load bs) = .next t) (hdone : t.status = .done) : t.pos = bs.length := by
  obtain ⟨hinv, -, hbuf⟩ := invariants_of_runCall h
  rw [hinv.doneAtEnd hdone, hbuf, Memory.size_ofBytes]

/-- A call that ends in `Done` has read complete instructions to the end of its buffer, and its lines are
theirs (R20, R33). -/
theorem instrs_of_runCall_done {bs : List Byte} {fuel : Nat} {t : State}
    (h : runCall fuel (State.load bs) = .next t) (hdone : t.status = .done) :
    ∃ is : List Instr, (∀ i ∈ is, i.wf = true) ∧ bs = (is.map encode).flatten ∧
      t.lines = is.map instrLine := by
  obtain ⟨-, hmatch, hbuf⟩ := invariants_of_runCall h
  obtain ⟨is, his, hbytes, hlines⟩ := hmatch (by simp [hdone])
  rw [pos_of_runCall_done h hdone, hbuf, Memory.bytes_ofBytes, List.take_length] at hbytes
  exact ⟨is, his, hbytes, hlines⟩

/-- A call over complete instructions makes one step over each and one more, which ends it in `Done` with
their lines (R107). -/
theorem runCall_load_instrs {is : List Instr} (his : ∀ i ∈ is, i.wf = true) :
    ∃ t : State, t.status = .done ∧ t.lines = is.map instrLine ∧
      ∀ fuel, runCall (is.length + 1 + fuel) (State.load (is.map encode).flatten) = .next t := by
  obtain ⟨t, ⟨hrunning, -, hpos⟩, hu, hlines, hrun⟩ :=
    runCall_over_instrs his (ready_load (is.map encode).flatten) (rest := []) (by simp)
  have hstep : step t = .next t.finish :=
    stepAtEndOfBufferIsDone t hrunning ((State.unread_eq_nil_iff hpos).1 hu)
  refine ⟨t.finish, rfl, hlines, fun fuel => ?_⟩
  rw [Nat.add_assoc, hrun, Nat.add_comm 1, runCall_of_step_terminal hstep (.inl rfl)]

/-- A call has a text exactly over complete instructions, and it is the header and their lines. -/
theorem decodeCall_eq_ok_iff {bs : List Byte} {text : String} :
    decodeCall bs = some (.ok text) ↔
      ∃ is : List Instr, (∀ i ∈ is, i.wf = true) ∧ bs = (is.map encode).flatten ∧
        text = header ++ String.join (is.map instrLine) := by
  constructor
  · intro h
    obtain ⟨t, hrun, hresult⟩ := decodeCall_eq_some h
    obtain ⟨hdone, rfl⟩ := State.result_eq_ok_iff.1 hresult
    obtain ⟨is, his, hbytes, hlines⟩ := instrs_of_runCall_done hrun hdone
    exact ⟨is, his, hbytes, by rw [hlines]⟩
  · rintro ⟨is, his, rfl, rfl⟩
    obtain ⟨t, hdone, hlines, hrun⟩ := runCall_load_instrs his
    rw [decodeCall_of_runCall hrun, State.result_eq_ok_iff, hlines]
    exact ⟨hdone, rfl⟩

/-- Settles O55: the invariants read the instructions off the final state, and the call steps over given
instructions one by one to it. -/
theorem callIsDoneExactlyOnWholeInstructions : Obligations.CallIsDoneExactlyOnWholeInstructions := by
  refine ⟨fun bs text => decodeCall_eq_ok_iff, fun is his => ?_⟩
  obtain ⟨t, hdone, hlines, hrun⟩ := runCall_load_instrs his
  exact ⟨t, hrun 0, hdone, pos_of_runCall_done (hrun 0) hdone, by simp [hlines]⟩

/-- Settles O54: the call ends in one of the two terminal states, and the invariant there says that a
failure has an error an input can cause. -/
theorem everyCallHasAResult : Obligations.EveryCallHasAResult := by
  intro bs
  obtain ⟨t, hend, hrun⟩ := callEndsWithinItsBound bs
  have hresult := decodeCall_of_runCall fun fuel => hrun _ (Nat.le_add_right _ fuel)
  obtain ⟨hinv, -, -⟩ := invariants_of_runCall (hrun _ le_rfl)
  obtain ⟨-, -, hfailed, -⟩ := resultIsAFunctionOfTheFinalState
  rw [hresult]
  obtain hdone | hfail := hend
  · exact .inl ⟨_, State.result_eq_ok_iff.2 ⟨hdone, rfl⟩⟩
  · obtain ⟨e, herr, hreachable⟩ := hinv.failedHasErr hfail
    exact .inr ⟨e, hfailed t e hfail herr, hreachable⟩

/-- Settles O57: the joined buffer holds the instructions of the first, then those of the second. -/
theorem joinedBuffersJoinTheirLines : Obligations.JoinedBuffersJoinTheirLines := by
  intro xs ys bx bY hx hy
  obtain ⟨is, his, rfl, hbx⟩ := decodeCall_eq_ok_iff.1 hx
  obtain ⟨js, hjs, rfl, hbY⟩ := decodeCall_eq_ok_iff.1 hy
  obtain rfl := (String.append_right_inj header).1 hbx
  obtain rfl := (String.append_right_inj header).1 hbY
  refine decodeCall_eq_ok_iff.2 ⟨is ++ js, ?_, by simp, ?_⟩
  · simpa [or_imp, forall_and] using ⟨his, hjs⟩
  · rw [List.map_append, String.join_append, ← String.append_assoc]
    rfl

/-- Settles O52: the empty buffer is at its end at once, and is the encoding of no instructions. -/
theorem emptyInputGivesTheHeader : Obligations.EmptyInputGivesTheHeader :=
  ⟨stepAtEndOfBufferIsDone _ rfl rfl, decodeCall_eq_ok_iff.2 ⟨[], by simp, rfl, rfl⟩⟩

end Sys2Proof.Machine

/-! ### Reset, the registers, and one read through the cursor -/

namespace Sys2Proof.Machine

/-- Settles O1: the reset state's fields and its register views are these literals. -/
theorem resetValues : Obligations.ResetValues := ⟨rfl, rfl, rfl, rfl, rfl, rfl, rfl⟩

/-- Settles O2: reset sets every field but the buffer, and a `Running` state has no result. -/
theorem hostResetRestartsTheCall : Obligations.HostResetRestartsTheCall :=
  fun _ => ⟨rfl, rfl, rfl, rfl, rfl, rfl⟩

/-- Settles O3: no bound, a bound that is kept, and one that is exceeded. -/
theorem startSuppliesBufferWithinBound : Obligations.StartSuppliesBufferWithinBound := by
  refine ⟨fun max bs hbound => ?_, fun m bs hlong => if_neg (Nat.not_le.2 hlong), fun _ => rfl⟩
  cases max with
  | none => rfl
  | some m => exact if_pos (hbound m rfl)

/-- Settles O4: three statuses, three numbers. -/
theorem statusRegisterValues : Obligations.StatusRegisterValues := by
  intro s
  cases hs : s.status <;> simp [State.statusReg, hs]

/-- Settles O5: the error alone fixes both views; a 2-bit mod is the same number in 8 bits. -/
theorem errorRegisterValues : Obligations.ErrorRegisterValues := by
  have hmod : ∀ m : BitVec 2, (m.setWidth 8).toNat = m.toNat := by decide
  intro s
  refine ⟨fun h => ?_, fun h => ?_, fun b h => ?_, fun m h => ?_, fun h => ?_⟩ <;>
    simp only [State.errCode, State.errInfo, h, errorCode, errorInfo, hmod, and_self]

/-- Settles O49: a call begins inside the invariant, and reset is the start of a call over no bytes. -/
theorem invariantHoldsAtReset : Obligations.InvariantHoldsAtReset := ⟨inv_load [], inv_load⟩

/-- Settles O7: a byte at the position is the first unread one. -/
theorem cursorReadsOneByte : Obligations.CursorReadsOneByte := by
  refine fun c hwf => ⟨Cursor.next_at_end, fun b hb => ?_⟩
  obtain ⟨hlt, rfl⟩ := List.getElem?_eq_some_iff.1 hb
  exact Cursor.next_of_cons hwf (List.drop_eq_getElem_cons hlt)

/-- Settles O8: the two bytes are the encoding of the value `le16` puts together. -/
theorem sixteenBitReadsAreLittleEndian : Obligations.SixteenBitReadsAreLittleEndian := by
  rintro c lo hi hwf ⟨rest, hu⟩
  rw [← encodeHalf_le16] at hu
  exact ⟨le16 lo hi, next16_reads.forward hwf trivial hu.symm, toNat_le16 lo hi⟩

/-- Settles O31: `exec` emits a record, and that changes the lines alone. -/
theorem formsChangeOnlyTheLines : Obligations.FormsChangeOnlyTheLines := by
  intro i s t h
  rw [exec_eq_emit] at h
  cases h
  exact ⟨fun _ => rfl, rfl, rfl, rfl, rfl, _, rfl⟩

/-- Settles O48: the word's bytes stand at the position of a canonical buffer, and what the decoder
reads from them begins with the instruction's encoding. -/
theorem placedWordIsTheNextInstruction : Obligations.PlacedWordIsTheNextInstruction := by
  intro s nbits w i h
  obtain ⟨c, hdecode⟩ : ∃ c, decode ⟨Memory.ofBytes (wordBytes nbits w), 0⟩ = .got i c := by
    unfold decodeTableWord at h
    split at h <;> cases h
    exact ⟨_, ‹_›⟩
  obtain ⟨hi, -, hu⟩ := decode_eq_got (Memory.wf_ofBytes _) hdecode
  have hword : encode i <+: wordBytes nbits w := ⟨_, hu.symm.trans (Memory.bytes_ofBytes _)⟩
  have hp : encode i <+: (s.withFetchWord nbits w).unread :=
    hword.trans ⟨_, (Memory.drop_overlay s.buf s.pos (wordBytes nbits w)).symm⟩
  exact stepRunsTheDecodedInstruction _ i ⟨rfl, Memory.wf_overlay .., (State.pos_lt_size hp).le⟩ hi hp

end Sys2Proof.Machine

/-! ### The cursor after an instruction, or after an error -/

namespace Sys2Proof

open Machine (Cursor Read)

/-- Where `decode` raises an error, the cursor stands at or after its start, inside the same buffer. -/
theorem cursor_of_decode_raised {c c' : Cursor} {e : DecodeError} (hpos : c.pos ≤ c.buf.size)
    (hwf : c.buf.wf = true) (h : decode c = .raised e c') :
    c'.buf = c.buf ∧ c.pos ≤ c'.pos ∧ c'.pos ≤ c.buf.size := by
  obtain ⟨b0, rest, hu, hn⟩ | ⟨-, hn⟩ := Cursor.next_cases hwf hpos
  · have hin : c.pos + 1 ≤ c.buf.size := Cursor.advance_inside (bs := [b0]) hpos hu
    cases hclass : classify b0 with
    | error e' =>
      rw [decode_of_unclassified hwf hu hclass] at h
      cases h
      exact ⟨rfl, Nat.le_succ _, hin⟩
    | ok form =>
      simp only [decode, hn, hclass, Read.ofExcept_ok, Read.andThen_got] at h
      obtain ⟨-, hbuf, hend⟩ := (decodeForm_readsAfter hclass).raised (c := c.advance 1) hin hwf h
      exact ⟨hbuf, hpos.trans hend.ge, hend.le⟩
  · simp only [decode, hn, Read.andThen_raised] at h
    cases h
    exact ⟨rfl, le_rfl, hpos⟩

/-- Settles O19: an instruction has at least 2 bytes, and they end inside the buffer. -/
theorem cursorMovesForwardInsideTheBuffer : Obligations.CursorMovesForwardInsideTheBuffer := by
  intro c hwf hpos
  cases h : decode c with
  | got i c' =>
    obtain ⟨-, rfl, hu⟩ := decode_eq_got hwf h
    have hlen := (encodedLength i).1
    exact .inl ⟨i, _, rfl, rfl, Nat.lt_add_of_pos_right (by omega), Cursor.advance_inside hpos hu⟩
  | raised e c' => exact .inr ⟨e, c', rfl, cursor_of_decode_raised hpos hwf h⟩
  | outside => exact absurd h (decode_ne_outside hpos hwf)

/-! ### Tables, sample words and displacements -/

/-- Settles O13: the table at each of its codes. -/
theorem baseExpressionTable : Obligations.BaseExpressionTable := rfl

/-- Settles O14: the decoder, run on each word. -/
theorem sampleWordsDecode : Obligations.SampleWordsDecode := by
  unfold Obligations.SampleWordsDecode
  decide

open Machine (asI16_eq_toInt sext16)

/-- Settles O22: sign extension keeps the two's complement value. -/
theorem displacementValues : Obligations.DisplacementValues := by
  refine ⟨fun b => ?_, fun lo hi => ?_⟩
  · rw [asI16_eq_toInt, sext16, BitVec.toInt_signExtend_of_le (by decide), BitVec.toInt_eq_toNat_cond]
    split_ifs <;> omega
  · rw [asI16_eq_toInt, BitVec.toInt_eq_toNat_cond, toNat_le16]
    split_ifs <;> omega

end Sys2Proof

/-! ### Text: decimal spellings, operands and lines -/

namespace Sys2Proof.Machine

theorem digitChar_digit {d : Nat} (h : d < 10) :
    '0' ≤ digitChar d ∧ digitChar d ≤ '9' ∧ (digitChar d).toNat - 48 = d := by
  revert d; decide

theorem digitChar_eq_zero {d : Nat} (h : d < 10) : digitChar d = '0' ↔ d = 0 := by
  revert d; decide

/-- The spellings, one digit at a time: what holds of a single digit, and still holds with a digit more
after the spelling of a positive number, holds of every number and its spelling. -/
theorem toList_dec_induction {P : Nat → List Char → Prop} (one : ∀ d < 10, P d [digitChar d])
    (more : ∀ n d ds, 0 < n → d < 10 → P n ds → P (10 * n + d) (ds ++ [digitChar d])) (v : Nat) :
    P v (dec v).toList := by
  have spelled : ∀ fuel n, n < fuel → P n (decDigits fuel n) := by
    intro fuel
    induction fuel with
    | zero => exact fun n h => absurd h (Nat.not_lt_zero n)
    | succ fuel ih =>
      intro n h
      by_cases hn : n < 10
      · simpa [decDigits, hn, Nat.mod_eq_of_lt hn] using one n hn
      · have hP := more (n / 10) (n % 10) _ (by omega) (by omega) (ih (n / 10) (by omega))
        rw [Nat.div_add_mod] at hP
        simpa [decDigits, hn] using hP
  simpa [dec] using spelled (v + 1) v (Nat.lt_succ_self v)

theorem dec_digits (v : Nat) : ∀ ch ∈ (dec v).toList, '0' ≤ ch ∧ ch ≤ '9' := by
  refine toList_dec_induction (P := fun _ ds => ∀ ch ∈ ds, '0' ≤ ch ∧ ch ≤ '9') ?_ ?_ v
  · intro d hd
    obtain ⟨hlo, hhi, -⟩ := digitChar_digit hd
    simp [hlo, hhi]
  · intro n d ds _ hd ih
    obtain ⟨hlo, hhi, -⟩ := digitChar_digit hd
    simpa [or_imp, forall_and, hlo, hhi] using ih

/-- A spelling has a first digit, and that is `0` only for 0. -/
theorem dec_head (v : Nat) : ∃ ch ds, (dec v).toList = ch :: ds ∧ (ch = '0' → v = 0) := by
  refine toList_dec_induction (P := fun n ds => ∃ ch tl, ds = ch :: tl ∧ (ch = '0' → n = 0)) ?_ ?_ v
  · exact fun d hd => ⟨_, _, rfl, (digitChar_eq_zero hd).1⟩
  · rintro n d _ hn - ⟨ch, tl, rfl, hch⟩
    exact ⟨ch, _, rfl, fun h => absurd (hch h) hn.ne'⟩

/-- The number a digit sequence spells, read from the left. -/
def digitsValue (ds : List Char) : Nat := ds.foldl (fun n ch => 10 * n + (ch.toNat - 48)) 0

theorem digitsValue_dec (v : Nat) : digitsValue (dec v).toList = v := by
  refine toList_dec_induction (P := fun n ds => digitsValue ds = n) ?_ ?_ v
  · intro d hd
    obtain ⟨-, -, hval⟩ := digitChar_digit hd
    simp [digitsValue, hval]
  · intro n d ds _ hd ih
    obtain ⟨-, -, hval⟩ := digitChar_digit hd
    rw [digitsValue] at ih ⊢
    simp [ih, hval]

/-- Settles O24: digit by digit; and what begins with `0` spells 0. -/
theorem decimalSpelling : Obligations.DecimalSpelling := by
  intro v
  obtain ⟨ch, ds, hds, hzero⟩ := dec_head v
  refine ⟨by simp [hds], dec_digits v, fun h => ?_, digitsValue_dec v⟩
  obtain rfl : ch = '0' := by simpa [hds] using h
  rw [hzero rfl]
  rfl

/-- The term of a displacement is that of its two's complement value (R57, R58, R69). -/
theorem renderSpec_indexedMemory (b : Base) (d : Half) :
    renderSpec (.indexedMemory b d) = "[" ++ baseText b ++ displacementText d.toInt ++ "]" := by
  rw [← asI16_eq_toInt]
  rfl

/-- Settles O25: the displacement's term by the sign of its value, -32768 being the negative case again. -/
theorem operandRendering : Obligations.OperandRendering := by
  refine ⟨fun _ => rfl, fun _ => rfl, fun b d hd => ?_, fun b d k hk hd => ?_, fun b d k hk hd => ?_,
    fun b => ?_, fun v => ⟨?_, rfl, rfl⟩⟩
  · rw [renderSpec_indexedMemory, hd, displacementText_zero, String.append_empty]
  · simp only [renderSpec_indexedMemory, hd, displacementText_pos hk, String.append_assoc]
  · simp only [renderSpec_indexedMemory, hd, displacementText_neg hk, String.append_assoc]
  · have hmin : (0x8000#16).toInt = -(32768 : Nat) := by decide
    have hdec : dec 32768 = "32768" := rfl
    rw [renderSpec_indexedMemory, hmin, displacementText_neg (by decide), hdec]
    simp only [String.append_assoc]
    rfl
  · simp [render, sizeText]

/-- Text that ends in a character other than a space. -/
def NoTrailingSpace (text : String) : Prop := ∃ ch, text.toList.getLast? = some ch ∧ ch ≠ ' '

theorem NoTrailingSpace.append {text : String} (h : NoTrailingSpace text) (pre : String) :
    NoTrailingSpace (pre ++ text) := by
  obtain ⟨ch, hlast, hch⟩ := h
  exact ⟨ch, by simp [List.getLast?_append, hlast], hch⟩

theorem noTrailingSpace_dec (v : Nat) : NoTrailingSpace (dec v) := by
  obtain ⟨ch, ds, hds, -⟩ := dec_head v
  have hne : (dec v).toList ≠ [] := by simp [hds]
  refine ⟨_, List.getLast?_eq_some_getLast hne, fun h => ?_⟩
  have hdigit := (dec_digits v _ (List.getLast_mem hne)).1
  rw [h] at hdigit
  exact absurd hdigit (by decide)

theorem noTrailingSpace_render (o : Operand) : NoTrailingSpace (render o) := by
  have hbracket : NoTrailingSpace "]" := ⟨']', rfl, by decide⟩
  cases o with
  | imm v size => exact (noTrailingSpace_dec v).append (sizeText size)
  | spec o =>
    cases o with
    | register r => cases r <;> exact ⟨_, rfl, by decide⟩
    | directMemory a => exact hbracket.append _
    | indexedMemory b d => exact hbracket.append _

/-- Settles O26: a line has one LF, which is its last character, and before it stands the source. -/
theorem lineShape : Obligations.LineShape := by
  refine fun r => ⟨rfl, ⟨("mov " ++ render r.dst ++ ", " ++ render r.src).toList, ?_, ?_, ?_⟩,
    (isLine_renderLine r).outputChar⟩
  · exact String.toList_append
  · have hcount := (isLine_renderLine r).count_lf
    rw [renderLine, String.toList_append, List.count_append] at hcount
    exact List.count_eq_zero.1 (Nat.succ.inj hcount)
  · obtain ⟨ch, hlast, hch⟩ :=
      (noTrailingSpace_render r.src).append ("mov " ++ render r.dst ++ ", ")
    rw [hlast]
    simpa using hch

end Sys2Proof.Machine

/-! ### The step over an immediate to a register or memory (R82) -/

namespace Sys2Proof.Machine

theorem classify_immediateToRegisterOrMemory (w : BitVec 1) :
    classify (0b1100011#7 ++ w) = .ok .immediateToRegisterOrMemory := by
  revert w; decide

/-- The step over `1100 011 w`, `mm xxx bbb`, an operand's bytes and an immediate. -/
theorem step_over_movRmImm {s : State} {x : BitVec 3} {m : RmOperand} {v : Imm} {line : String}
    (hs : s.Ready) (hm : m.wf .byte = true) (hline : instrLine (.movRmImm x m v) = line)
    (hp : [0b1100011#7 ++ v.width.bit, (m.mod ++ x ++ m.rm : Byte)] ++ m.tail ++ v.encode <+: s.unread) :
    step s = .next { s with
      pos := s.pos + (2 + v.encode.length) + m.tail.length
      lines := s.lines ++ [line] } := by
  have hbytes : encode (.movRmImm x m v) =
      [0b1100011#7 ++ v.width.bit, (m.mod ++ x ++ m.rm : Byte)] ++ m.tail ++ v.encode := rfl
  rw [step_of_bytes (i := .movRmImm x m v) hs hm hbytes hline hp]
  simp
  omega

/-- Settles O38: the displacement bytes are those of one operand with these fields under width 0, and
too few bytes after the second leave the form short. -/
theorem stepOverImmediateToRegisterOrMemory : Obligations.StepOverImmediateToRegisterOrMemory := by
  intro s mod x rm hs
  have hbyte : 0b11000110#8 = 0b1100011#7 ++ Width.byte.bit := rfl
  have hword : 0b11000111#8 = 0b1100011#7 ++ Width.word.bit := rfl
  refine ⟨fun disp hlen => ?_, fun w hu => ?_⟩
  · obtain ⟨m, hm, rfl⟩ := exists_operand mod rm .byte hlen
    refine ⟨m, decodeRM_ofBytes_tail hm, ?_⟩
    obtain ⟨rfl, rfl, hmw⟩ := hm
    refine ⟨fun v hp => ?_, fun lo hi hp => ?_⟩
    · rw [hbyte] at hp
      exact step_over_movRmImm (v := .byte v) hs hmw (instrLine_movRmImm_byte x m v) hp
    · rw [hword, ← encodeHalf_le16 lo hi] at hp
      rw [← toNat_le16]
      exact step_over_movRmImm (v := .word (le16 lo hi)) hs hmw (instrLine_movRmImm_word x m _) hp
  · have hclass := classify_immediateToRegisterOrMemory w
    obtain hu | ⟨rest, hu, hshort⟩ := hu
    · exact step_truncates_of_short hs hu hclass nofun
    · refine step_truncates_of_short (rest := (mod ++ x ++ rm : Byte) :: rest) hs hu hclass ?_
      rintro _ _ ⟨⟩
      simp only [List.length_cons, formLength, modField_append, rmField_append, wField_append,
        immLength_ofBit]
      omega

end Sys2Proof.Machine
